-- ==== Sys2Proof/Word.lean ====
section
/-! DEFINITION. The word and byte types (00_scope.md R5, R7): registers, memory cells, addresses and
instructions are 16-bit words; the console ports carry 8-bit bytes. -/

namespace Sys2Proof

/-- WORD_WIDTH = 16 (R5): registers, memory cells, addresses and instructions. -/
abbrev Word := BitVec 16

/-- A byte of the console ports and of the program image (R36, R53). -/
abbrev Byte := BitVec 8

end Sys2Proof
end

