-- ==== Sys2Proof/Config.lean ====
section
/-! DEFINITION. The implementation parameters of 00_scope.md R5, each at the value the spec gives it.
The opcode map is the table `Opcode.code` of Sys2Proof/Decode.lean. -/

namespace Sys2Proof

/-- JSRR_BASE_SAMPLE (44_control.md R118, D13): whether JSRR reads its base register after or before it
writes the link into R7. The two differ only for `JSRR R7`. -/
inductive JsrrBaseSample where
  | afterLink
  | beforeLink
  deriving DecidableEq, Repr

/-- The eight trap vector numbers (30_encoding.md R74). -/
structure TrapVectors where
  getc : Byte
  out : Byte
  puts : Byte
  inp : Byte
  putsp : Byte
  halt : Byte
  inU16 : Byte
  outU16 : Byte
  deriving DecidableEq, Repr

namespace Config

/-- KBSR_ADDR (R5, R47, D6). -/
def kbsrAddr : Word := 0xFE00#16

/-- KBDR_ADDR (R5, R47, D6). -/
def kbdrAddr : Word := 0xFE02#16

/-- KBSR_READY (R5, R49): bit 15. -/
def kbsrReady : Word := 0x8000#16

/-- PC_START (R5, R42, D10). -/
def pcStart : Word := 0x3000#16

/-- GPR_RESET (R5, R42, D11). -/
def gprReset : Word := 0x0000#16

/-- NEWLINE_BYTE (R5, R128, D18). -/
def newlineByte : Byte := 0x0A#8

/-- The default of JSRR_BASE_SAMPLE (R5, R118, D13). -/
def jsrrBaseSample : JsrrBaseSample := .afterLink

/-- TRAP_VEC_GETC .. TRAP_VEC_HALT, TRAP_VEC_IN_U16, TRAP_VEC_OUT_U16 (R5, R74, D5). -/
def trapVectors : TrapVectors :=
  { getc := 0x20#8, out := 0x21#8, puts := 0x22#8, inp := 0x23#8,
    putsp := 0x24#8, halt := 0x25#8, inU16 := 0x26#8, outU16 := 0x27#8 }

/-- DESIGN CHOICE (notes/assumptions/19.md, safe): how many string cells PUTS and PUTSP read in one model
step: one whole pass over memory. A longer string goes on in the next step. -/
def stringBurst : Nat := 65536

end Config

end Sys2Proof
end

