-- ==== Sys2Proof/Syntax.lean ====
section
/-! DEFINITION. The instructions as data: one constructor per row of spec/opcode_table.json. An instruction
"carries only the operand fields needed to execute" (30_encoding.md R90): bits no field uses are not kept. -/

namespace Sys2Proof

/-- A general register (10_state.md R19). -/
inductive Reg where
  | r0 | r1 | r2 | r3 | r4 | r5 | r6 | r7
  deriving DecidableEq, Repr

/-- The sixteen opcodes, two of them reserved (30_encoding.md R72). -/
inductive Opcode where
  | br | add | ld | st | jsr | and | ldr | str | rti | not | ldi | sti | jmp | unused | lea | trap
  deriving DecidableEq, Repr

/-- An instruction word, decoded. Immediates and offsets keep the width of their field and are
sign-extended where they are used (R71). -/
inductive Instr where
  /-- ADD, register form (R103): DR = SR1 + SR2. -/
  | addReg (dr sr1 sr2 : Reg)
  /-- ADD, immediate form (R104). -/
  | addImm (dr sr1 : Reg) (imm5 : BitVec 5)
  /-- AND, register form (R105). -/
  | andReg (dr sr1 sr2 : Reg)
  /-- AND, immediate form (R106). -/
  | andImm (dr sr1 : Reg) (imm5 : BitVec 5)
  /-- NOT (R107). -/
  | notReg (dr sr : Reg)
  /-- LD (R108). -/
  | ld (dr : Reg) (off9 : BitVec 9)
  /-- LDI (R109). -/
  | ldi (dr : Reg) (off9 : BitVec 9)
  /-- LDR (R110). -/
  | ldr (dr baseR : Reg) (off6 : BitVec 6)
  /-- LEA (R111). -/
  | lea (dr : Reg) (off9 : BitVec 9)
  /-- ST (R112). -/
  | st (sr : Reg) (off9 : BitVec 9)
  /-- STI (R113). -/
  | sti (sr : Reg) (off9 : BitVec 9)
  /-- STR (R114). -/
  | str (sr baseR : Reg) (off6 : BitVec 6)
  /-- BR with its mask flags n, z, p (R115). -/
  | br (n z p : Bool) (off9 : BitVec 9)
  /-- JMP; `JMP R7` is the alias RET (R116). -/
  | jmp (baseR : Reg)
  /-- JSR (R117). -/
  | jsr (off11 : BitVec 11)
  /-- JSRR (R118). -/
  | jsrr (baseR : Reg)
  /-- TRAP GETC (R122). -/
  | trapGetc
  /-- TRAP OUT (R123). -/
  | trapOut
  /-- TRAP PUTS (R124). -/
  | trapPuts
  /-- TRAP IN (R125). -/
  | trapIn
  /-- TRAP PUTSP (R126). -/
  | trapPutsp
  /-- TRAP HALT (R127). -/
  | trapHalt
  /-- TRAP IN-U16 (R128). -/
  | trapInU16
  /-- TRAP OUT-U16 (R129). -/
  | trapOutU16
  /-- Opcode x8, RTI, reserved: a decode error (R86). The 12 bits below the opcode name the word. -/
  | rtiReserved (bits : BitVec 12)
  /-- Opcode xD, unused, reserved: a decode error (R86). -/
  | unusedReserved (bits : BitVec 12)
  /-- A TRAP word whose vector is none of the eight: a decode error (R87). -/
  | trapUnsupported (vect : Byte)
  deriving DecidableEq, Repr

end Sys2Proof
end

