-- ==== Sys2Proof/Decode.lean ====
section
/-! DEFINITION. The decoder of 30_encoding.md R89, total on every 16-bit word, and after it the encoder,
written from the formats R76 to R85. The numbers of the encoding stand in two tables: `Opcode.code` (R72, the
parameter OPCODE_MAP) and `trapVectors` (R74). UNVERIFIED (notes/assumptions/1.md, 2.md, 3.md): the numbers are
the spec's own decisions D1 to D5. -/

namespace Sys2Proof

/-! ## Fields and registers -/

/-- The field of `w` of `len` bits whose lowest bit is bit `lo` (00_scope.md R6). -/
def Word.field (w : Word) (lo len : Nat) : BitVec len := w.extractLsb' lo len

/-- The number of a register in a 3-bit register field (R68). -/
def Reg.bits : Reg → BitVec 3
  | .r0 => 0#3 | .r1 => 1#3 | .r2 => 2#3 | .r3 => 3#3
  | .r4 => 4#3 | .r5 => 5#3 | .r6 => 6#3 | .r7 => 7#3

/-- The register a 3-bit field names "by its unsigned value" (R68). -/
def Reg.ofBits (b : BitVec 3) : Reg :=
  if b = 0#3 then .r0 else if b = 1#3 then .r1 else if b = 2#3 then .r2 else if b = 3#3 then .r3
  else if b = 4#3 then .r4 else if b = 5#3 then .r5 else if b = 6#3 then .r6 else .r7

/-- The register named by the 3-bit field of `w` at bit `lo`. -/
def Word.reg (w : Word) (lo : Nat) : Reg := Reg.ofBits (w.field lo 3)

/-! ## The two tables of numbers -/

/-- OPCODE_MAP: the value of bits 15:12 for each opcode (R72). -/
def Opcode.code : Opcode → BitVec 4
  | .br => 0x0#4 | .add => 0x1#4 | .ld => 0x2#4 | .st => 0x3#4
  | .jsr => 0x4#4 | .and => 0x5#4 | .ldr => 0x6#4 | .str => 0x7#4
  | .rti => 0x8#4 | .not => 0x9#4 | .ldi => 0xA#4 | .sti => 0xB#4
  | .jmp => 0xC#4 | .unused => 0xD#4 | .lea => 0xE#4 | .trap => 0xF#4

/-- The opcode that bits 15:12 name, looked up in `Opcode.code`. -/
def Opcode.ofCode (c : BitVec 4) : Opcode :=
  if c = Opcode.code .br then .br else if c = Opcode.code .add then .add
  else if c = Opcode.code .ld then .ld else if c = Opcode.code .st then .st
  else if c = Opcode.code .jsr then .jsr else if c = Opcode.code .and then .and
  else if c = Opcode.code .ldr then .ldr else if c = Opcode.code .str then .str
  else if c = Opcode.code .rti then .rti else if c = Opcode.code .not then .not
  else if c = Opcode.code .ldi then .ldi else if c = Opcode.code .sti then .sti
  else if c = Opcode.code .jmp then .jmp else if c = Opcode.code .unused then .unused
  else if c = Opcode.code .lea then .lea else .trap

/-- The vector numbers this hardware decodes (R74). -/
def trapVectors : TrapVectors := Config.trapVectors

/-- The eight vectors of a table, in the order of R74. -/
def vectorList (t : TrapVectors) : List Byte :=
  [t.getc, t.out, t.puts, t.inp, t.putsp, t.halt, t.inU16, t.outU16]

/-- Whether `v` is one of the eight vectors of the table `t`; any other value is invalid (R74, R87). -/
def supportsVector (t : TrapVectors) (v : Byte) : Bool := (vectorList t).contains v

/-! ## The decoder -/

/-- The TRAP row of a vector, under the vector table `t` (R89, case xF). -/
def decodeTrap (t : TrapVectors) (v : Byte) : Instr :=
  if v = t.getc then .trapGetc
  else if v = t.out then .trapOut
  else if v = t.puts then .trapPuts
  else if v = t.inp then .trapIn
  else if v = t.putsp then .trapPutsp
  else if v = t.halt then .trapHalt
  else if v = t.inU16 then .trapInU16
  else if v = t.outU16 then .trapOutU16
  else .trapUnsupported v

/-- The row of the opcode table that the word `w` belongs to, under the vector table `t` (R89). The three rows
R86 and R87 call invalid are rows too (`Instr.decodeError`). -/
def decodeWith (t : TrapVectors) (w : Word) : Instr :=
  match Opcode.ofCode (w.field 12 4) with
  | .br => .br (w.getLsbD 11) (w.getLsbD 10) (w.getLsbD 9) (w.field 0 9)
  | .add =>
    if w.getLsbD 5 then .addImm (w.reg 9) (w.reg 6) (w.field 0 5)
    else .addReg (w.reg 9) (w.reg 6) (w.reg 0)
  | .ld => .ld (w.reg 9) (w.field 0 9)
  | .st => .st (w.reg 9) (w.field 0 9)
  | .jsr => if w.getLsbD 11 then .jsr (w.field 0 11) else .jsrr (w.reg 6)
  | .and =>
    if w.getLsbD 5 then .andImm (w.reg 9) (w.reg 6) (w.field 0 5)
    else .andReg (w.reg 9) (w.reg 6) (w.reg 0)
  | .ldr => .ldr (w.reg 9) (w.reg 6) (w.field 0 6)
  | .str => .str (w.reg 9) (w.reg 6) (w.field 0 6)
  | .rti => .rtiReserved (w.field 0 12)
  | .not => .notReg (w.reg 9) (w.reg 6)
  | .ldi => .ldi (w.reg 9) (w.field 0 9)
  | .sti => .sti (w.reg 9) (w.field 0 9)
  | .jmp => .jmp (w.reg 6)
  | .unused => .unusedReserved (w.field 0 12)
  | .lea => .lea (w.reg 9) (w.field 0 9)
  | .trap => decodeTrap t (w.field 0 8)

/-- The decoder of this hardware: the table row of every word, with its operands. -/
def decode (w : Word) : Instr := decodeWith trapVectors w

/-- Why a word is no instruction (R86, R87). -/
inductive DecodeError where
  /-- Opcode x8, RTI. -/
  | reservedRti
  /-- Opcode xD, the unused opcode. -/
  | reservedUnused
  /-- A TRAP word with this vector, none of the eight. -/
  | unsupportedVector (vect : Byte)
  deriving DecidableEq, Repr

/-- The decode error a row stands for, if it is one of the three invalid rows (R86, R87). -/
def Instr.decodeError : Instr → Option DecodeError
  | .rtiReserved _ => some .reservedRti
  | .unusedReserved _ => some .reservedUnused
  | .trapUnsupported v => some (.unsupportedVector v)
  | .addReg .. | .addImm .. | .andReg .. | .andImm .. | .notReg .. | .ld .. | .ldi .. | .ldr .. | .lea ..
  | .st .. | .sti .. | .str .. | .br .. | .jmp .. | .jsr .. | .jsrr .. | .trapGetc | .trapOut | .trapPuts
  | .trapIn | .trapPutsp | .trapHalt | .trapInU16 | .trapOutU16 => none

/-- `decode` as R89 writes it: an instruction, or a decode error by name. -/
def decodeChecked (w : Word) : Except DecodeError Instr :=
  match (decode w).decodeError with
  | some e => .error e
  | none => .ok (decode w)

/-- The instruction this decoder reads from a table word of `nbits` bits (one 16-bit word, R67; the bits from
`nbits` up are 0). A longer word is no instruction of this hardware. -/
def decodeTableWord (nbits w : Nat) : Option Instr :=
  if nbits ≤ 16 then some (decode (BitVec.ofNat 16 (w % 2 ^ nbits))) else none

/-! ## The encoder -/

/-- A TRAP word with the canonical 0000 in bits 11:8 (R85). -/
def encodeTrap (v : Byte) : Word := Opcode.code .trap ++ 0b0000#4 ++ v

/-- The canonical word of an instruction (R76 to R85); ignored bits hold the canonical values given there. -/
def encode : Instr → Word
  | .addReg d a b => Opcode.code .add ++ d.bits ++ a.bits ++ 0b0#1 ++ 0b00#2 ++ b.bits
  | .addImm d a i => Opcode.code .add ++ d.bits ++ a.bits ++ 0b1#1 ++ i
  | .andReg d a b => Opcode.code .and ++ d.bits ++ a.bits ++ 0b0#1 ++ 0b00#2 ++ b.bits
  | .andImm d a i => Opcode.code .and ++ d.bits ++ a.bits ++ 0b1#1 ++ i
  | .notReg d a => Opcode.code .not ++ d.bits ++ a.bits ++ 0b111111#6
  | .ld d o => Opcode.code .ld ++ d.bits ++ o
  | .ldi d o => Opcode.code .ldi ++ d.bits ++ o
  | .ldr d b o => Opcode.code .ldr ++ d.bits ++ b.bits ++ o
  | .lea d o => Opcode.code .lea ++ d.bits ++ o
  | .st r o => Opcode.code .st ++ r.bits ++ o
  | .sti r o => Opcode.code .sti ++ r.bits ++ o
  | .str r b o => Opcode.code .str ++ r.bits ++ b.bits ++ o
  | .br n z p o => Opcode.code .br ++ BitVec.ofBool n ++ BitVec.ofBool z ++ BitVec.ofBool p ++ o
  | .jmp b => Opcode.code .jmp ++ 0b000#3 ++ b.bits ++ 0b000000#6
  | .jsr o => Opcode.code .jsr ++ 0b1#1 ++ o
  | .jsrr b => Opcode.code .jsr ++ 0b0#1 ++ 0b00#2 ++ b.bits ++ 0b000000#6
  | .trapGetc => encodeTrap trapVectors.getc
  | .trapOut => encodeTrap trapVectors.out
  | .trapPuts => encodeTrap trapVectors.puts
  | .trapIn => encodeTrap trapVectors.inp
  | .trapPutsp => encodeTrap trapVectors.putsp
  | .trapHalt => encodeTrap trapVectors.halt
  | .trapInU16 => encodeTrap trapVectors.inU16
  | .trapOutU16 => encodeTrap trapVectors.outU16
  | .rtiReserved b => Opcode.code .rti ++ b
  | .unusedReserved b => Opcode.code .unused ++ b
  | .trapUnsupported v => encodeTrap v

/-- The bits of a row's words that the decoder ignores (R75). -/
def ignoredBits : Instr → Word
  | .addReg .. | .andReg .. => 0x0018#16
  | .notReg .. => 0x003F#16
  | .jmp .. => 0x0E3F#16
  | .jsrr .. => 0x063F#16
  | .trapGetc | .trapOut | .trapPuts | .trapIn | .trapPutsp | .trapHalt | .trapInU16 | .trapOutU16
  | .trapUnsupported _ => 0x0F00#16
  | .addImm .. | .andImm .. | .ld .. | .ldi .. | .ldr .. | .lea .. | .st .. | .sti .. | .str .. | .br ..
  | .jsr .. | .rtiReserved _ | .unusedReserved _ => 0x0000#16

end Sys2Proof
end

