-- ==== Sys2Proof/Machine/State.lean ====
section
/-! DEFINITION. The machine's state as plain data: everything 10_state.md and 20_memory.md give it, the trap a
blocking read holds in progress, and the two console ports. -/

namespace Sys2Proof
namespace Machine

/-- The eight general registers (10_state.md R18, R19). None is hardwired, none aliases another. -/
structure RegFile where
  r0 : Word
  r1 : Word
  r2 : Word
  r3 : Word
  r4 : Word
  r5 : Word
  r6 : Word
  r7 : Word
  deriving DecidableEq, Repr

/-- The reasons of a fatal error (10_state.md R31; 60_exceptions.md R135 to R137). -/
inductive FatalReason where
  /-- A malformed instruction word (R135). -/
  | decode
  /-- A failure of the input or output port (R136). -/
  | io
  /-- A numeric parse failure in IN-U16 (R137). -/
  | parse
  deriving DecidableEq, Repr

/-- The halt state machine's state (10_state.md R31). HALTED and FAULTED are terminal (R32). -/
inductive RunState where
  | running
  | halted
  | faulted (reason : FatalReason)
  deriving DecidableEq, Repr

/-- Memory: the cells that do not hold x0000, as (address, cell) pairs, addresses strictly rising. The unit is the
16-bit cell, the smallest the spec addresses (20_memory.md R43, R45; notes/assumptions/18.md). -/
abbrev Memory := List (Nat × Word)

/-- What the host's input stream answers next (10_state.md R36, R37). A poll takes the next answer whatever it
is; a blocking read waits past `noByte`. -/
inductive InEvent where
  /-- A byte, delivered once. -/
  | byte (b : Byte)
  /-- No byte is available at this moment, and the stream is open. -/
  | noByte
  /-- The stream is closed or has failed. -/
  | error
  deriving DecidableEq, Repr

/-- What the host answers an OutWrite or an OutFlush (10_state.md R38, R39). -/
inductive PortAnswer where
  | ok
  | error
  deriving DecidableEq, Repr

/-- A trap whose execute phase is not over: it holds the engine (10_state.md R36; 45_trap.md R131). -/
inductive InProgress where
  /-- GETC, waiting in InRead. -/
  | getc
  /-- IN, waiting in InRead. -/
  | inp
  /-- IN-U16, waiting in InRead with the digits read so far, in the order read (R128, `s`). -/
  | inU16 (digits : List Nat)
  /-- PUTS, with the address of the next cell to read. -/
  | puts (next : Word)
  /-- PUTSP, with the address of the next cell to read. -/
  | putsp (next : Word)
  deriving DecidableEq, Repr

structure State where
  /-- R0 to R7 (10_state.md R19). -/
  regs : RegFile
  /-- The address of the next instruction to fetch (R22). -/
  pc : Word
  /-- The condition codes: x0004 N, x0002 Z, x0001 P (R25, R26). -/
  cond : Word
  /-- The halt state machine (R31). -/
  runState : RunState
  /-- The 65536 cells, KBSR and KBDR among them (20_memory.md R43, R47). -/
  mem : Memory
  /-- The trap in progress, if any (MODEL's own field; notes/assumptions/13.md). -/
  busy : Option InProgress
  /-- The host's input stream: what it answers next (MODEL's own field; notes/assumptions/12.md). -/
  input : List InEvent
  /-- What the host answers the next output transactions; from its end on, ok (MODEL's own field;
  notes/assumptions/14.md). -/
  outAnswers : List PortAnswer
  /-- Bytes written and not yet flushed, oldest first (R38, R39; notes/assumptions/14.md). -/
  outPending : List Byte
  /-- Bytes flushed to the host, oldest first (R39; notes/assumptions/14.md). -/
  outDelivered : List Byte
  deriving DecidableEq, Repr

/-- Why the machine stops with a fault. No constructor: this hardware has no access, operand or form that stops it
outside its own rules, and a fatal error is a next state (60_exceptions.md R134; notes/assumptions/15.md, safe). -/
inductive Fault where
  deriving DecidableEq, Repr

/-- Why an instruction is refused. -/
inductive Refusal where
  /-- An instruction that has no meaning in this model yet: raised by `exec`'s arm alone, safe. No arm raises it:
  every instruction has its meaning. -/
  | notModelled (mnemonic : String)
  deriving DecidableEq, Repr

/-- The three outcomes of a step of this machine. -/
abbrev Outcome := Host.Outcome State Fault Refusal

namespace State

/-- `s` with the general registers `v`. -/
def setRegs (s : State) (v : RegFile) : State := { s with regs := v }

/-- `s` with the program counter `v`. -/
def setPc (s : State) (v : Word) : State := { s with pc := v }

/-- `s` with the condition codes `v`. -/
def setCond (s : State) (v : Word) : State := { s with cond := v }

/-- `s` with the halt state `v`. -/
def setRunState (s : State) (v : RunState) : State := { s with runState := v }

/-- `s` with the memory `v`. -/
def setMem (s : State) (v : Memory) : State := { s with mem := v }

/-- `s` with the trap in progress `v`. -/
def setBusy (s : State) (v : Option InProgress) : State := { s with busy := v }

/-- `s` with the input stream `v`. -/
def setInput (s : State) (v : List InEvent) : State := { s with input := v }

/-- `s` with the output answers `v`. -/
def setOutAnswers (s : State) (v : List PortAnswer) : State := { s with outAnswers := v }

/-- `s` with the unflushed bytes `v`. -/
def setOutPending (s : State) (v : List Byte) : State := { s with outPending := v }

/-- `s` with the delivered bytes `v`. -/
def setOutDelivered (s : State) (v : List Byte) : State := { s with outDelivered := v }

/-- The state after construction, before the first fetch and with no image loaded (10_state.md R42;
70_reset_and_hazards.md R151). COND is Z. DESIGN CHOICE for the last five fields, which are the model's own
(notes/assumptions/12.md to 14.md). -/
def reset : State where
  regs :=
    { r0 := Config.gprReset, r1 := Config.gprReset, r2 := Config.gprReset, r3 := Config.gprReset,
      r4 := Config.gprReset, r5 := Config.gprReset, r6 := Config.gprReset, r7 := Config.gprReset }
  pc := Config.pcStart
  cond := 0x0002#16
  runState := .running
  mem := []
  busy := none
  input := []
  outAnswers := []
  outPending := []
  outDelivered := []

end State

end Machine
end Sys2Proof
end

