-- ==== Sys2Proof/Machine/Ops.lean ====
section
/-! DEFINITION. The named operations every meaning is built from: registers (00_scope.md R11), memory cells and
the one read path (R12; 20_memory.md R44 to R52), the port primitives (R15; 10_state.md R36 to R39), raising a fatal
error (60_exceptions.md R134) and the fetch (40_engine.md R94). -/

namespace Sys2Proof
namespace Machine

/-! ## Parameters of the machine (00_scope.md R5) -/

/-- KBSR_ADDR. -/
def kbsrAddr : Word := Config.kbsrAddr

/-- KBDR_ADDR. -/
def kbdrAddr : Word := Config.kbdrAddr

/-- KBSR_READY. -/
def kbsrReady : Word := Config.kbsrReady

/-- NEWLINE_BYTE. -/
def newlineByte : Byte := Config.newlineByte

/-- JSRR_BASE_SAMPLE. -/
def jsrrBaseSample : JsrrBaseSample := Config.jsrrBaseSample

/-- The code of a fault reason on the status output (60_exceptions.md R138). -/
def FatalReason.code : FatalReason → Nat
  | .decode => 1
  | .io => 2
  | .parse => 3

/-! ## Registers (00_scope.md R11) -/

/-- The value of register `r`. -/
def RegFile.read (f : RegFile) (r : Reg) : Word :=
  match r with
  | .r0 => f.r0 | .r1 => f.r1 | .r2 => f.r2 | .r3 => f.r3
  | .r4 => f.r4 | .r5 => f.r5 | .r6 => f.r6 | .r7 => f.r7

/-- The file with register `r` holding `v`. -/
def RegFile.write (f : RegFile) (r : Reg) (v : Word) : RegFile :=
  match r with
  | .r0 => { f with r0 := v } | .r1 => { f with r1 := v } | .r2 => { f with r2 := v } | .r3 => { f with r3 := v }
  | .r4 => { f with r4 := v } | .r5 => { f with r5 := v } | .r6 => { f with r6 := v } | .r7 => { f with r7 := v }

/-- `x[r]`. -/
def State.readReg (s : State) (r : Reg) : Word := s.regs.read r

/-- `x[r] <- v`. -/
def State.writeReg (s : State) (r : Reg) (v : Word) : State := s.setRegs (s.regs.write r v)

/-! ## Memory cells (20_memory.md R43 to R45) -/

/-- What a cell that is not listed holds: x0000, its value after construction (10_state.md R42; R44). -/
def unlistedCell : Word := 0x0000#16

/-- `mem[a]`: the content of cell `a`, with no side effect. -/
def Memory.get (m : Memory) (a : Nat) : Word :=
  match m with
  | [] => unlistedCell
  | (k, v) :: rest => if k = a then v else Memory.get rest a

/-- The cells other than `a`. -/
def Memory.erase (m : Memory) (a : Nat) : Memory := m.filter (fun c => c.1 ≠ a)

/-- `m` with the pair `(a, v)` put before the first address that is not lower. -/
def Memory.insert (m : Memory) (a : Nat) (v : Word) : Memory :=
  match m with
  | [] => [(a, v)]
  | c :: rest => if c.1 < a then c :: Memory.insert rest a v else (a, v) :: c :: rest

/-- `m` with `v` in cell `a`. A cell that would hold what an unlisted one reads as is not listed. -/
def Memory.set (m : Memory) (a : Nat) (v : Word) : Memory :=
  if v = unlistedCell then m.erase a else (m.erase a).insert a v

/-- The canonical form from the address `lo` up: addresses strictly rising, inside the address space, no cell
that holds what an unlisted one reads as. -/
def Memory.wfFrom (lo : Nat) (m : Memory) : Bool :=
  match m with
  | [] => true
  | (k, v) :: rest => decide (lo ≤ k) && decide (k < 65536) && decide (v ≠ unlistedCell) && Memory.wfFrom (k + 1) rest

/-- The canonical form. -/
def Memory.wf (m : Memory) : Bool := Memory.wfFrom 0 m

/-- `mem[a]` for a 16-bit address: none is out of range (R46). -/
def State.cell (s : State) (a : Word) : Word := s.mem.get a.toNat

/-- `MemWrite(a, 1, v)`: a plain store, to KBSR and KBDR too (R12, R51). -/
def State.memWrite (s : State) (a : Word) (v : Word) : State := s.setMem (s.mem.set a.toNat v)

/-! ## Fatal errors (60_exceptions.md R134; 40_engine.md R100) -/

/-- `raise Fatal(reason)`: the one exception of this hardware. The halt state becomes FAULTED(reason) and the cycle ends
at that point, so no trap stays in progress. Nothing else is saved (R139), there is no handler and no return
from it (R144); effects already made stay. -/
def State.raiseFatal (s : State) (r : FatalReason) : State := (s.setRunState (.faulted r)).setBusy none

/-- What an operation that may raise answers: a value and the state it leaves, or the reason to raise and the
state with the effects already made. -/
inductive Res (α : Type) where
  | ok (a : α) (s : State)
  | fatal (r : FatalReason) (s : State)
  deriving DecidableEq, Repr

/-- Go on with `k` after an operation that succeeded; an operation that raises ends the execute phase. -/
def Res.andThen {α : Type} (x : Res α) (k : α → State → Outcome) : Outcome :=
  match x with
  | .ok a s => k a s
  | .fatal r s => .next (s.raiseFatal r)

/-! ## Console input port (10_state.md R36, R37) -/

/-- `InPoll()`: takes the stream's next answer. Where no answer is listed the host has no byte
(notes/assumptions/12.md). -/
def inPoll (s : State) : InEvent × State :=
  match s.input with
  | [] => (.noByte, s)
  | e :: rest => (e, s.setInput rest)

/-- What a blocking read answers. -/
inductive ReadResult where
  /-- The byte, taken from the stream. -/
  | byte (b : Byte) (s : State)
  /-- The stream is closed or has failed. -/
  | error (s : State)
  /-- No byte yet: the transaction does not complete. -/
  | waits (s : State)
  deriving DecidableEq, Repr

/-- `InRead()` on the answers `es`: waits past "no byte yet" until a byte or an error comes. -/
def inReadFrom (es : List InEvent) (s : State) : ReadResult :=
  match es with
  | [] => .waits (s.setInput [])
  | .noByte :: rest => inReadFrom rest s
  | .byte b :: rest => .byte b (s.setInput rest)
  | .error :: rest => .error (s.setInput rest)

/-- `InRead()`. -/
def inRead (s : State) : ReadResult := inReadFrom s.input s

/-- The host delivers more of its input stream. It may do so between any two steps, which is how a trap that waits
goes on (R36; 70_reset_and_hazards.md R156). Not a step of the machine. -/
def State.hostSupply (s : State) (es : List InEvent) : State := s.setInput (s.input ++ es)

/-! ## Console output port (10_state.md R38, R39) -/

/-- The host's answer to the next output transaction (notes/assumptions/14.md). -/
def nextOutAnswer (s : State) : PortAnswer × State :=
  match s.outAnswers with
  | [] => (.ok, s)
  | a :: rest => (a, s.setOutAnswers rest)

/-- `OutWrite(b)`; `Error` raises Fatal(IO) and the byte is not written. -/
def outWrite (b : Byte) (s : State) : Res Unit :=
  match nextOutAnswer s with
  | (.ok, s1) => .ok () (s1.setOutPending (s1.outPending ++ [b]))
  | (.error, s1) => .fatal .io s1

/-- `OutWrite` of each byte in order, up to the first that fails. -/
def outWriteAll (bs : List Byte) (s : State) : Res Unit :=
  match bs with
  | [] => .ok () s
  | b :: rest =>
    match outWrite b s with
    | .ok _ s1 => outWriteAll rest s1
    | .fatal r s1 => .fatal r s1

/-- `OutFlush()`: every byte written so far reaches the host, in order; `Error` raises Fatal(IO). -/
def outFlush (s : State) : Res Unit :=
  match nextOutAnswer s with
  | (.ok, s1) => .ok () ((s1.setOutDelivered (s1.outDelivered ++ s1.outPending)).setOutPending [])
  | (.error, s1) => .fatal .io s1

/-! ## The one read path (20_memory.md R48, R49, R52) -/

/-- What a poll of the keyboard writes before the read (R49): on a byte KBSR and KBDR, on no byte KBSR. -/
def pollKeyboard (s : State) : Res Unit :=
  match inPoll s with
  | (.byte b, s1) => .ok () ((s1.memWrite kbsrAddr kbsrReady).memWrite kbdrAddr (b.setWidth 16))
  | (.noByte, s1) => .ok () (s1.memWrite kbsrAddr 0x0000#16)
  | (.error, s1) => .fatal .io s1

/-- `MemRead(a, 1)`: every read the core makes. A read of KBSR_ADDR polls first; any other is a pure lookup. -/
def memRead (a : Word) (s : State) : Res Word :=
  if a = kbsrAddr then
    match pollKeyboard s with
    | .ok _ s1 => .ok (s1.cell a) s1
    | .fatal r s1 => .fatal r s1
  else .ok (s.cell a) s

/-! ## Fetch (40_engine.md R94) -/

/-- Fetch and increment: read the word at pc, then advance pc by 1, wrapping. A poll Error at KBSR_ADDR raises
in the read and ends the cycle at that point, before the increment (R99; notes/assumptions/17.md). -/
def fetch (s : State) : Res Word :=
  match memRead s.pc s with
  | .ok w s1 => .ok w (s1.setPc (s1.pc + 1#16))
  | .fatal r s1 => .fatal r s1

/-- A state whose next step fetches at a cell that is not KBSR_ADDR, in which the fetched word can be chosen: running,
no trap in progress, and pc moved to PC_START if it stood at KBSR_ADDR (notes/assumptions/21.md). -/
def State.readyToFetch (s : State) : State :=
  ((s.setRunState .running).setBusy none).setPc (if s.pc = kbsrAddr then Config.pcStart else s.pc)

end Machine
end Sys2Proof
end

