-- ==== Sys2Proof/Machine/Flags.lean ====
section
/-! DEFINITION. The condition codes: SetCC (10_state.md R27), the encoding of COND (R26), the branch test
(44_control.md R115). -/

namespace Sys2Proof
namespace Machine

/-- COND with only P set (R26). -/
def condP : Word := 0x0001#16

/-- COND with only Z set (R26). -/
def condZ : Word := 0x0002#16

/-- COND with only N set (R26). -/
def condN : Word := 0x0004#16

/-- The condition codes of a value: Z if it is x0000, else N if bit 15 is 1, else P (R27). -/
def condOf (r : Word) : Word :=
  if r = 0x0000#16 then condZ else if r.getLsbD 15 then condN else condP

/-- `SetCC(r)` (R27). -/
def State.setCC (s : State) (r : Word) : State := s.setCond (condOf r)

/-- `x[DR] <- v; SetCC(x[DR])`: how every instruction that sets COND writes its destination (R28). -/
def State.writeResult (s : State) (dr : Reg) (v : Word) : State :=
  (s.writeReg dr v).setCC ((s.writeReg dr v).readReg dr)

/-- BR's mask `w[11:9]`, lined up with COND (30_encoding.md R70). -/
def branchMask (n z p : Bool) : Word := (BitVec.ofBool n ++ BitVec.ofBool z ++ BitVec.ofBool p).setWidth 16

/-- BR is taken: `(nzp-mask & COND) ≠ 0` (R115). -/
def branchTaken (n z p : Bool) (s : State) : Bool := branchMask n z p &&& s.cond != 0x0000#16

end Machine
end Sys2Proof
end

