-- ==== Sys2Proof/Machine/Operands.lean ====
section
/-! DEFINITION. The operand forms: sign extension (00_scope.md R9; 30_encoding.md R71), the addressing modes
(42_load.md and 43_store.md, their opening paragraphs), the bytes of a word (20_memory.md R56) and the decimal digits of IN-U16 and
OUT-U16 (45_trap.md R128, R129). -/

namespace Sys2Proof
namespace Machine

/-- `sext_N(f)` (R9). -/
def sext {n : Nat} (f : BitVec n) : Word := f.signExtend 16

/-- `zext_8(b)` (R10). -/
def zext8 (b : Byte) : Word := b.setWidth 16

/-- Bits 7:0 of a word (20_memory.md R56). -/
def lowByte (w : Word) : Byte := w.extractLsb' 0 8

/-- Bits 15:8 of a word (20_memory.md R56). -/
def highByte (w : Word) : Byte := w.extractLsb' 8 8

/-- PC-relative: `pc + sext_N(off)`, pc being the address of the next instruction (R22, R24). -/
def pcRelative {n : Nat} (off : BitVec n) (s : State) : Word := s.pc + sext off

/-- Base plus offset: `x[BaseR] + sext_6(off6)`. -/
def baseOffset (b : Reg) (off : BitVec 6) (s : State) : Word := s.readReg b + sext off

/-- Memory-indirect: the pointer at `pc + sext_9(off9)`, read through the read path (R109, R113). -/
def indirectAddress (off : BitVec 9) (s : State) : Res Word := memRead (pcRelative off s) s

/-! ## Decimal digits -/

/-- Whether a byte is an ASCII digit, x30 to x39 (R128). -/
def isDigit (b : Byte) : Bool := decide (0x30 ≤ b.toNat) && decide (b.toNat ≤ 0x39)

/-- The value of an ASCII digit, `b - x30` (R128). -/
def digitValue (b : Byte) : Nat := b.toNat - 0x30

/-- The ASCII code of a decimal digit, `x30 + c` (R129). -/
def digitByte (d : Nat) : Byte := BitVec.ofNat 8 (0x30 + d)

/-- The decimal value of a list of digits, most significant first; leading zeros allowed (R128). -/
def decimalValue (ds : List Nat) : Nat := ds.foldl (fun v d => 10 * v + d) 0

/-- The decimal digits of `n < 10 ^ fuel`, most significant first, no leading zeros, one digit for 0 (R129). -/
def decimalDigits (fuel n : Nat) : List Nat :=
  match fuel with
  | 0 => []
  | f + 1 => if n < 10 then [n] else decimalDigits f (n / 10) ++ [n % 10]

/-- The bytes OUT-U16 writes for `w`, read as unsigned: 1 to 5 of them (R129). -/
def decimalBytes (w : Word) : List Byte := (decimalDigits 5 w.toNat).map digitByte

end Machine
end Sys2Proof
end

