-- ==== Sys2Proof/Machine/Control.lean ====
section
/-! DEFINITION. The control transfers (44_control.md). None changes COND; there is no delay slot (R119). -/

namespace Sys2Proof
namespace Machine

/-- `x[7] <- pc`: the link write of JSR, JSRR and every trap but HALT (R117, R118; 45_trap.md R121). -/
def State.link (s : State) : State := s.writeReg .r7 s.pc

/-- BR (R115). -/
def execBr (n z p : Bool) (off9 : BitVec 9) (s : State) : Outcome :=
  .next (if branchTaken n z p s then s.setPc (pcRelative off9 s) else s)

/-- JMP (R116). -/
def execJmp (baseR : Reg) (s : State) : Outcome := .next (s.setPc (s.readReg baseR))

/-- JSR (R117). -/
def execJsr (off11 : BitVec 11) (s : State) : Outcome := .next (s.link.setPc (pcRelative off11 s))

/-- JSRR under either value of JSRR_BASE_SAMPLE (R118). -/
def jsrrWith (order : JsrrBaseSample) (baseR : Reg) (s : State) : State :=
  match order with
  | .afterLink => s.link.setPc (s.link.readReg baseR)
  | .beforeLink => s.link.setPc (s.readReg baseR)

/-- JSRR (R118), at the spec's default for JSRR_BASE_SAMPLE (D13; UNVERIFIED, notes/assumptions/8.md, unsafe for
`JSRR R7` alone). -/
def execJsrr (baseR : Reg) (s : State) : Outcome := .next (jsrrWith jsrrBaseSample baseR s)

end Machine
end Sys2Proof
end

