-- ==== Sys2Proof/Machine/Load.lean ====
section
/-! DEFINITION. The load instructions (42_load.md). Every read goes through `memRead`; a poll Error raises
Fatal(IO) before DR is written. -/

namespace Sys2Proof
namespace Machine

/-- `x[DR] <- MemRead(ea, 1); SetCC(x[DR])`, shared by the three loads. -/
def loadInto (dr : Reg) (ea : Word) (s : State) : Outcome :=
  (memRead ea s).andThen fun v s1 => .next (s1.writeResult dr v)

/-- LD (R108). -/
def execLd (dr : Reg) (off9 : BitVec 9) (s : State) : Outcome :=
  loadInto dr (pcRelative off9 s) s

/-- LDI (R109): the pointer is read first, then what it points to. -/
def execLdi (dr : Reg) (off9 : BitVec 9) (s : State) : Outcome :=
  (indirectAddress off9 s).andThen fun p s1 => loadInto dr p s1

/-- LDR (R110): BaseR is read before DR is written. -/
def execLdr (dr baseR : Reg) (off6 : BitVec 6) (s : State) : Outcome :=
  loadInto dr (baseOffset baseR off6 s) s

/-- LEA (R111): an address, not a load; it reads no memory and sets COND. -/
def execLea (dr : Reg) (off9 : BitVec 9) (s : State) : Outcome :=
  .next (s.writeResult dr (pcRelative off9 s))

end Machine
end Sys2Proof
end

