-- ==== Sys2Proof/Machine/Operate.lean ====
section
/-! DEFINITION. The operate instructions (41_operate.md): wrapping 16-bit arithmetic, no carry, no overflow flag, no
arithmetic exception (R102). Sources are read before DR is written. -/

namespace Sys2Proof
namespace Machine

/-- ADD, register form (R103). -/
def execAddReg (dr sr1 sr2 : Reg) (s : State) : Outcome :=
  .next (s.writeResult dr (s.readReg sr1 + s.readReg sr2))

/-- ADD, immediate form (R104). -/
def execAddImm (dr sr1 : Reg) (imm5 : BitVec 5) (s : State) : Outcome :=
  .next (s.writeResult dr (s.readReg sr1 + sext imm5))

/-- AND, register form (R105). -/
def execAndReg (dr sr1 sr2 : Reg) (s : State) : Outcome :=
  .next (s.writeResult dr (s.readReg sr1 &&& s.readReg sr2))

/-- AND, immediate form (R106). -/
def execAndImm (dr sr1 : Reg) (imm5 : BitVec 5) (s : State) : Outcome :=
  .next (s.writeResult dr (s.readReg sr1 &&& sext imm5))

/-- NOT (R107). -/
def execNot (dr sr : Reg) (s : State) : Outcome :=
  .next (s.writeResult dr (~~~ s.readReg sr))

end Machine
end Sys2Proof
end

