-- ==== Sys2Proof/Machine/Reserved.lean ====
section
/-! DEFINITION. The three rows that decode to an error (30_encoding.md R86, R87): executing such a word raises
Fatal(DECODE) (40_engine.md R95; 60_exceptions.md R135), a next state. Nothing else of the cycle's state changes; pc
already holds the word's address plus 1. -/

namespace Sys2Proof
namespace Machine

/-- Opcode x8, RTI, reserved (R86). -/
def execRtiReserved (_bits : BitVec 12) (s : State) : Outcome := .next (s.raiseFatal .decode)

/-- Opcode xD, unused, reserved (R86). -/
def execUnusedReserved (_bits : BitVec 12) (s : State) : Outcome := .next (s.raiseFatal .decode)

/-- A TRAP word with an unsupported vector (R87). -/
def execTrapUnsupported (_vect : Byte) (s : State) : Outcome := .next (s.raiseFatal .decode)

end Machine
end Sys2Proof
end

