-- ==== Sys2Proof/Machine/Store.lean ====
section
/-! DEFINITION. The store instructions (43_store.md). A write never polls (20_memory.md R51); no store changes
COND or a general register. -/

namespace Sys2Proof
namespace Machine

/-- ST (R112). -/
def execSt (sr : Reg) (off9 : BitVec 9) (s : State) : Outcome :=
  .next (s.memWrite (pcRelative off9 s) (s.readReg sr))

/-- STI (R113): the pointer is read through the read path, then written through. -/
def execSti (sr : Reg) (off9 : BitVec 9) (s : State) : Outcome :=
  (indirectAddress off9 s).andThen fun p s1 => .next (s1.memWrite p (s1.readReg sr))

/-- STR (R114). -/
def execStr (sr baseR : Reg) (off6 : BitVec 6) (s : State) : Outcome :=
  .next (s.memWrite (baseOffset baseR off6 s) (s.readReg sr))

end Machine
end Sys2Proof
end

