-- ==== Sys2Proof/Machine/Trap.lean ====
section
/-! DEFINITION. The trap dispatcher and its eight calls (45_trap.md). A call runs in place: no vector table, no change
of pc, COND or mode (R120, R121). A call that cannot end in this step (a blocking read with no byte; a string longer than
`Config.stringBurst`) leaves itself in `busy`, and the next step goes on with it (notes/assumptions/13.md, 19.md). -/

namespace Sys2Proof
namespace Machine

/-- The call is over: the next cycle fetches. -/
def State.trapDone (s : State) : State := s.setBusy none

/-- `OutFlush`, then the call is over: the end of every call that writes output (R130). -/
def flushAndFinish (s : State) : Outcome :=
  (outFlush s).andThen fun _ s1 => .next s1.trapDone

/-- `case InRead() of Byte(b): k b; Error: raise Fatal(IO)`; with no byte yet the call `waiting` stays in
progress (10_state.md R36; R131). -/
def onByte (waiting : InProgress) (k : Byte → State → Outcome) (s : State) : Outcome :=
  match inRead s with
  | .byte b s1 => k b s1
  | .error s1 => .next (s1.raiseFatal .io)
  | .waits s1 => .next (s1.setBusy (some waiting))

/-! ## GETC, IN -/

/-- GETC from its InRead on (R122). -/
def continueGetc (s : State) : Outcome :=
  onByte .getc (fun b s1 => .next (s1.writeReg .r0 (zext8 b)).trapDone) s

/-- GETC (R122). -/
def execTrapGetc (s : State) : Outcome := continueGetc s.link

/-- IN from its InRead on: the byte into R0, then its echo (R125). -/
def continueIn (s : State) : Outcome :=
  onByte .inp (fun b s1 => (outWrite b (s1.writeReg .r0 (zext8 b))).andThen fun _ s2 => flushAndFinish s2) s

/-- IN (R125): no prompt. -/
def execTrapIn (s : State) : Outcome := continueIn s.link

/-! ## OUT, OUT-U16 -/

/-- OUT (R123). -/
def execTrapOut (s : State) : Outcome :=
  (outWrite (lowByte (s.link.readReg .r0)) s.link).andThen fun _ s1 => flushAndFinish s1

/-- OUT-U16 (R129). -/
def execTrapOutU16 (s : State) : Outcome :=
  (outWriteAll (decimalBytes (s.link.readReg .r0)) s.link).andThen fun _ s1 => flushAndFinish s1

/-! ## PUTS, PUTSP -/

/-- Where the string loop stands. -/
inductive StringResult where
  /-- The zero cell was read. -/
  | done (s : State)
  /-- A cell read or a byte write failed. -/
  | fatal (r : FatalReason) (s : State)
  /-- The burst is used up; the next cell to read is `a`. -/
  | more (a : Word) (s : State)
  deriving DecidableEq, Repr

/-- The loop of PUTS and PUTSP over at most `fuel` cells from address `a`, writing `bytesOf c` for each nonzero cell
`c`; only a whole cell equal to x0000 ends it (R124, R126). -/
def stringLoop (bytesOf : Word → List Byte) (fuel : Nat) (a : Word) (s : State) : StringResult :=
  match fuel with
  | 0 => .more a s
  | f + 1 =>
    match memRead a s with
    | .fatal r s1 => .fatal r s1
    | .ok c s1 =>
      if c = 0x0000#16 then .done s1
      else
        match outWriteAll (bytesOf c) s1 with
        | .fatal r s2 => .fatal r s2
        | .ok _ s2 => stringLoop bytesOf f (a + 1#16) s2

/-- A string call from the cell at `a` on; `resume` is the call as it stands when a burst ends. -/
def continueString (bytesOf : Word → List Byte) (resume : Word → InProgress) (a : Word) (s : State) : Outcome :=
  match stringLoop bytesOf Config.stringBurst a s with
  | .done s1 => flushAndFinish s1
  | .fatal r s1 => .next (s1.raiseFatal r)
  | .more a1 s1 => .next (s1.setBusy (some (resume a1)))

/-- The byte PUTS writes for a cell: bits 7:0 (R124). -/
def putsBytes (c : Word) : List Byte := [lowByte c]

/-- The bytes PUTSP writes for a cell: bits 15:8, then bits 7:0 (R126). -/
def putspBytes (c : Word) : List Byte := [highByte c, lowByte c]

/-- PUTS from the cell at `a` on. -/
def continuePuts (a : Word) (s : State) : Outcome := continueString putsBytes .puts a s

/-- PUTSP from the cell at `a` on. -/
def continuePutsp (a : Word) (s : State) : Outcome := continueString putspBytes .putsp a s

/-- PUTS (R124). -/
def execTrapPuts (s : State) : Outcome := continuePuts (s.link.readReg .r0) s.link

/-- PUTSP (R126). -/
def execTrapPutsp (s : State) : Outcome := continuePutsp (s.link.readReg .r0) s.link

/-! ## IN-U16 -/

/-- Where the digit loop stands, with the answers not yet taken. -/
inductive DigitResult where
  /-- The newline was read. -/
  | done (digits : List Nat) (rest : List InEvent)
  /-- The stream is closed or has failed. -/
  | error (rest : List InEvent)
  /-- No newline yet and no further byte. -/
  | waits (digits : List Nat)
  deriving DecidableEq, Repr

/-- The loop of IN-U16 on the answers `es`, with the digits `ds` read so far: digits are kept, a newline ends it, any
other byte is discarded (R128). Each pass is one InRead (`digitLoop_eq_inRead` in Laws/Ops.lean). -/
def digitLoop (es : List InEvent) (ds : List Nat) : DigitResult :=
  match es with
  | [] => .waits ds
  | .noByte :: rest => digitLoop rest ds
  | .error :: rest => .error rest
  | .byte b :: rest =>
    if b = newlineByte then .done ds rest
    else if isDigit b then digitLoop rest (ds ++ [digitValue b])
    else digitLoop rest ds

/-- The parse of IN-U16: no digit, or a value above 65535, raises Fatal(PARSE) (R128; 60_exceptions.md R137). -/
def parseInto (ds : List Nat) (s : State) : Outcome :=
  if ds = [] then .next (s.raiseFatal .parse)
  else if 65535 < decimalValue ds then .next (s.raiseFatal .parse)
  else .next (s.writeReg .r0 (BitVec.ofNat 16 (decimalValue ds))).trapDone

/-- IN-U16 with the digits `ds` already read (R128). -/
def continueInU16 (ds : List Nat) (s : State) : Outcome :=
  match digitLoop s.input ds with
  | .done ds1 rest => parseInto ds1 (s.setInput rest)
  | .error rest => .next ((s.setInput rest).raiseFatal .io)
  | .waits ds1 => .next ((s.setInput []).setBusy (some (.inU16 ds1)))

/-- IN-U16 (R128): no echo. -/
def execTrapInU16 (s : State) : Outcome := continueInU16 [] s.link

/-! ## HALT -/

/-- HALT (R127): no register, no output. -/
def execTrapHalt (s : State) : Outcome := .next (s.setRunState .halted)

/-! ## A trap that holds the engine -/

/-- The next step of a call in progress: no fetch (40_engine.md R98; R131). -/
def resumeTrap (t : InProgress) (s : State) : Outcome :=
  match t with
  | .getc => continueGetc s
  | .inp => continueIn s
  | .inU16 ds => continueInU16 ds s
  | .puts a => continuePuts a s
  | .putsp a => continuePutsp a s

end Machine
end Sys2Proof
end

