-- ==== Sys2Proof/Machine/Dispatch.lean ====
section
/-! DEFINITION. The execute phase (40_engine.md R96): one arm per instruction, each its meaning. -/

namespace Sys2Proof
namespace Machine

/-- `execute(i)` (40_engine.md R96, R99). It sees pc already incremented. -/
def exec (i : Instr) (s : State) : Host.Outcome State Fault Refusal :=
  match i with
  | .addReg dr sr1 sr2 => Sys2Proof.Machine.execAddReg dr sr1 sr2 s
  | .addImm dr sr1 imm5 => Sys2Proof.Machine.execAddImm dr sr1 imm5 s
  | .andReg dr sr1 sr2 => Sys2Proof.Machine.execAndReg dr sr1 sr2 s
  | .andImm dr sr1 imm5 => Sys2Proof.Machine.execAndImm dr sr1 imm5 s
  | .notReg dr sr => Sys2Proof.Machine.execNot dr sr s
  | .ld dr off9 => Sys2Proof.Machine.execLd dr off9 s
  | .ldi dr off9 => Sys2Proof.Machine.execLdi dr off9 s
  | .ldr dr baseR off6 => Sys2Proof.Machine.execLdr dr baseR off6 s
  | .lea dr off9 => Sys2Proof.Machine.execLea dr off9 s
  | .st sr off9 => Sys2Proof.Machine.execSt sr off9 s
  | .sti sr off9 => Sys2Proof.Machine.execSti sr off9 s
  | .str sr baseR off6 => Sys2Proof.Machine.execStr sr baseR off6 s
  | .br n z p off9 => Sys2Proof.Machine.execBr n z p off9 s
  | .jmp baseR => Sys2Proof.Machine.execJmp baseR s
  | .jsr off11 => Sys2Proof.Machine.execJsr off11 s
  | .jsrr baseR => Sys2Proof.Machine.execJsrr baseR s
  | .trapGetc => Sys2Proof.Machine.execTrapGetc s
  | .trapOut => Sys2Proof.Machine.execTrapOut s
  | .trapPuts => Sys2Proof.Machine.execTrapPuts s
  | .trapIn => Sys2Proof.Machine.execTrapIn s
  | .trapPutsp => Sys2Proof.Machine.execTrapPutsp s
  | .trapHalt => Sys2Proof.Machine.execTrapHalt s
  | .trapInU16 => Sys2Proof.Machine.execTrapInU16 s
  | .trapOutU16 => Sys2Proof.Machine.execTrapOutU16 s
  | .rtiReserved bits => Sys2Proof.Machine.execRtiReserved bits s
  | .unusedReserved bits => Sys2Proof.Machine.execUnusedReserved bits s
  | .trapUnsupported vect => Sys2Proof.Machine.execTrapUnsupported vect s

end Machine
end Sys2Proof
end

