-- ==== Sys2Proof/Machine/Step.lean ====
section
/-! DEFINITION. One cycle of the engine (40_engine.md R93, R99). -/

namespace Sys2Proof
namespace Machine

/-- One step. RUNNING with no trap in progress: fetch, increment, decode, execute (R99). RUNNING with a trap in
progress: the trap goes on, nothing is fetched (R98). HALTED and FAULTED are terminal: nothing changes
(10_state.md R32; notes/assumptions/16.md). -/
def step (s : State) : Host.Outcome State Fault Refusal :=
  match s.runState with
  | .running =>
    match s.busy with
    | some t => resumeTrap t s
    | none => (fetch s).andThen fun w s1 => exec (decode w) s1
  | .halted => .next s
  | .faulted _ => .next s

/-- `s` with the table word `w` of `nbits` bits where the next step fetches, ready to fetch it
(notes/assumptions/21.md). -/
def State.withFetchWord (s : State) (nbits w : Nat) : State :=
  s.readyToFetch.memWrite s.readyToFetch.pc (BitVec.ofNat 16 (w % 2 ^ nbits))

end Machine
end Sys2Proof
end

