-- ==== Sys2Proof/Machine/Image.lean ====
section
/-! DEFINITION. The image-load interface (20_memory.md R53 to R55; 70_reset_and_hazards.md R152, R153): what the
external loader does between construction and the first fetch. Not a step of the machine. -/

namespace Sys2Proof
namespace Machine

/-- A launch this spec does not admit. -/
inductive LoadRefusal where
  /-- The image's origin is not PC_START (70_reset_and_hazards.md R153, D10). -/
  | originNotPcStart (origin : Word)
  /-- The image's words would run past xFFFF (20_memory.md R54). -/
  | runsPastTop (origin : Word) (count : Nat)
  deriving DecidableEq, Repr

/-- The big-endian words of a byte sequence; a trailing odd byte is dropped (R53). -/
def wordsOfBytes : List Byte → List Word
  | hi :: lo :: rest => (hi ++ lo) :: wordsOfBytes rest
  | [_] => []
  | [] => []

/-- Write words into consecutive cells from `a` on. The loader does not poll (R55). -/
def writeWords (a : Word) (ws : List Word) (s : State) : State :=
  match ws with
  | [] => s
  | w :: rest => writeWords (a + 1#16) rest (s.memWrite a w)

/-- `load(bytes)` (R53): an image of fewer than two bytes loads nothing; the loader changes nothing but
memory (R55). -/
def loadImage (bytes : List Byte) (s : State) : Except LoadRefusal State :=
  match wordsOfBytes bytes with
  | [] => .ok s
  | origin :: ws =>
    if 65536 < origin.toNat + ws.length then .error (.runsPastTop origin ws.length)
    else if origin ≠ Config.pcStart then .error (.originNotPcStart origin)
    else .ok (writeWords origin ws s)

end Machine
end Sys2Proof
end

