-- ==== Sys2Proof/WellFormed.lean ====
section
/-! DEFINITION. Which terms of Instr stand for a row of the opcode table. Field widths are in the types; what is
left to check is that a TRAP with an unsupported vector does not hold one of the eight supported ones
(30_encoding.md R74, R87). -/

namespace Sys2Proof

/-- An instruction is well formed when it is what some word decodes to. -/
def Instr.wf : Instr → Bool
  | .trapUnsupported v => !supportsVector trapVectors v
  | .addReg .. | .addImm .. | .andReg .. | .andImm .. | .notReg .. | .ld .. | .ldi .. | .ldr .. | .lea ..
  | .st .. | .sti .. | .str .. | .br .. | .jmp .. | .jsr .. | .jsrr .. | .trapGetc | .trapOut | .trapPuts
  | .trapIn | .trapPutsp | .trapHalt | .trapInU16 | .trapOutU16 | .rtiReserved _ | .unusedReserved _ => true

/-- An instruction the engine executes: none of the three decode-error rows (R86, R87). -/
def Instr.valid (i : Instr) : Bool := i.decodeError.isNone

end Sys2Proof
end

