-- ==== Sys2Proof/Safety.lean ====
section
/-! DEFINITION. The terms in which claims about the machine are stated: its invariant, the spec's own lists of who writes
what (10_state.md R21, R23, R28; 20_memory.md R44), and what a safe run is. -/

namespace Sys2Proof
namespace Machine

/-! ## The machine invariant -/

/-- Whether a string call is in progress. -/
def InProgress.isString : InProgress → Bool
  | .puts _ | .putsp _ => true
  | .getc | .inp | .inU16 _ => false

/-- Whether the run has ended in a fatal error. -/
def RunState.isFaulted : RunState → Bool
  | .faulted _ => true
  | .running | .halted => false

/-- What holds at reset and after every step. -/
structure Inv (s : State) : Prop where
  /-- "Exactly one of the three flags is set at a time", and bits 15:3 are 0 (10_state.md R25, R26). -/
  condOneHot : s.cond = condN ∨ s.cond = condZ ∨ s.cond = condP
  /-- Memory keeps its canonical form (the model's; notes/assumptions/18.md). -/
  memCanonical : s.mem.wf = true
  /-- Only a running machine has a trap in progress (the model's; notes/assumptions/13.md). -/
  busyRunning : s.busy ≠ none → s.runState = .running
  /-- The digits IN-U16 has read are decimal digits (45_trap.md R128). -/
  digitsDecimal : ∀ ds, s.busy = some (.inU16 ds) → ∀ d ∈ ds, d ≤ 9
  /-- No byte is left unflushed when the next cycle fetches (10_state.md R39; 45_trap.md R130): one can be only
  inside a string call, or after a fatal error. -/
  outputSettled : s.runState.isFaulted = false → (∀ t, s.busy = some t → t.isString = false) → s.outPending = []

/-! ## Who writes what -/

/-- The instructions that apply SetCC (10_state.md R28). -/
def setsCond : Instr → Bool
  | .addReg .. | .addImm .. | .andReg .. | .andImm .. | .notReg .. | .ld .. | .ldi .. | .ldr .. | .lea .. => true
  | .st .. | .sti .. | .str .. | .br .. | .jmp .. | .jsr .. | .jsrr .. | .trapGetc | .trapOut | .trapPuts
  | .trapIn | .trapPutsp | .trapHalt | .trapInU16 | .trapOutU16 | .rtiReserved _ | .unusedReserved _
  | .trapUnsupported _ => false

/-- The general registers an instruction may write (10_state.md R21). -/
def writesRegs : Instr → List Reg
  | .addReg d _ _ | .addImm d _ _ | .andReg d _ _ | .andImm d _ _ | .notReg d _ => [d]
  | .ld d _ | .ldi d _ | .ldr d _ _ | .lea d _ => [d]
  | .jsr _ | .jsrr _ => [.r7]
  | .trapGetc | .trapIn | .trapInU16 => [.r7, .r0]
  | .trapOut | .trapPuts | .trapPutsp | .trapOutU16 => [.r7]
  | .st .. | .sti .. | .str .. | .br .. | .jmp .. | .trapHalt | .rtiReserved _ | .unusedReserved _
  | .trapUnsupported _ => []

/-- The instructions whose execute phase may write PC (10_state.md R23). -/
def writesPc : Instr → Bool
  | .br .. | .jmp .. | .jsr .. | .jsrr .. => true
  | .addReg .. | .addImm .. | .andReg .. | .andImm .. | .notReg .. | .ld .. | .ldi .. | .ldr .. | .lea ..
  | .st .. | .sti .. | .str .. | .trapGetc | .trapOut | .trapPuts | .trapIn | .trapPutsp | .trapHalt
  | .trapInU16 | .trapOutU16 | .rtiReserved _ | .unusedReserved _ | .trapUnsupported _ => false

/-- The instructions that store to memory (20_memory.md R44). -/
def isStore : Instr → Bool
  | .st .. | .sti .. | .str .. => true
  | .addReg .. | .addImm .. | .andReg .. | .andImm .. | .notReg .. | .ld .. | .ldi .. | .ldr .. | .lea ..
  | .br .. | .jmp .. | .jsr .. | .jsrr .. | .trapGetc | .trapOut | .trapPuts | .trapIn | .trapPutsp
  | .trapHalt | .trapInU16 | .trapOutU16 | .rtiReserved _ | .unusedReserved _ | .trapUnsupported _ => false

/-- The instructions whose execute phase reads memory, and so may poll the keyboard (20_memory.md R52, R58). -/
def readsMemory : Instr → Bool
  | .ld .. | .ldi .. | .ldr .. | .sti .. | .trapPuts | .trapPutsp => true
  | .addReg .. | .addImm .. | .andReg .. | .andImm .. | .notReg .. | .lea .. | .st .. | .str .. | .br ..
  | .jmp .. | .jsr .. | .jsrr .. | .trapGetc | .trapOut | .trapIn | .trapHalt | .trapInU16 | .trapOutU16
  | .rtiReserved _ | .unusedReserved _ | .trapUnsupported _ => false

/-- The address a store writes and the state it writes it in, with the meaning's own address functions: for STI the
state is the one its pointer read leaves (43_store.md). -/
def storeTarget (i : Instr) (s : State) : Option (Word × State) :=
  match i with
  | .st _ off => some (pcRelative off s, s)
  | .str _ b off => some (baseOffset b off s, s)
  | .sti _ off =>
    match indirectAddress off s with
    | .ok p s1 => some (p, s1)
    | .fatal _ _ => none
  | .addReg .. | .addImm .. | .andReg .. | .andImm .. | .notReg .. | .ld .. | .ldi .. | .ldr .. | .lea ..
  | .br .. | .jmp .. | .jsr .. | .jsrr .. | .trapGetc | .trapOut | .trapPuts | .trapIn | .trapPutsp
  | .trapHalt | .trapInU16 | .trapOutU16 | .rtiReserved _ | .unusedReserved _ | .trapUnsupported _ => none

/-! ## Safe runs -/

/-- `n` steps; every step of this machine answers a next state, and a stop would end the run where it stands. -/
def runFor (n : Nat) (s : State) : State :=
  match n with
  | 0 => s
  | k + 1 =>
    match step s with
    | .next t => runFor k t
    | .fault _ => s
    | .refused _ => s

/-- The run from `s` ends in no fatal error within `n` steps. FAULTED is terminal, so its end says so of every
step before. -/
def SafeFor (n : Nat) (s : State) : Prop := (runFor n s).runState.isFaulted = false

/-- The run from `s` reaches HALTED. -/
def Halts (s : State) : Prop := ∃ n, (runFor n s).runState = .halted

end Machine

/-! ## The words of the claims, written from the spec and not from the meanings -/

namespace Claims

open Machine

/-- The register named by the 3-bit field of `w` whose lowest bit is `lo` (30_encoding.md R68). -/
def regAt (w : Word) (lo : Nat) : Reg := Reg.ofBits (w.extractLsb' lo 3)

/-- The condition codes of a value, with the numbers of COND (10_state.md R26, R27). -/
def ccOf (v : Word) : Word :=
  if v = 0x0000#16 then 0x0002#16 else if v.getLsbD 15 = true then 0x0004#16 else 0x0001#16

/-- `x[d] <- v; SetCC(x[d])`, and nothing else. -/
def withResult (s : State) (d : Reg) (v : Word) : State :=
  { s with regs := s.regs.write d v, cond := ccOf v }

/-- `x[7] <- pc`, and nothing else. -/
def linked (s : State) : State := { s with regs := s.regs.write .r7 s.pc }

/-- FAULTED(r): the run ends here, the call with it, and nothing else changes (60_exceptions.md R134, R139). -/
def faulted (s : State) (r : FatalReason) : State := { s with runState := .faulted r, busy := none }

/-- The host answers Ok to the next `n` output transactions. -/
def outOk (n : Nat) (s : State) : Prop := ∀ a ∈ s.outAnswers.take n, a = PortAnswer.ok

/-- The bytes among the answers of an input stream. -/
def bytesIn (es : List InEvent) : List Byte :=
  es.filterMap fun e =>
    match e with
    | .byte b => some b
    | .noByte => none
    | .error => none

/-- The decimal digits among some bytes, as numbers, in order (45_trap.md R128). -/
def digitsIn (bs : List Byte) : List Nat :=
  (bs.filter fun b => decide (0x30 ≤ b.toNat ∧ b.toNat ≤ 0x39)).map fun b => b.toNat - 0x30

/-- The loop of PUTS and PUTSP as 45_trap.md R124 and R126 write it, as a relation: from the cell at `a` in state `s` the
loop reads `n` cells and ends at the zero cell (`done`) or at the first error (`fatal`). -/
inductive StringRun (bytesOf : Word → List Byte) : Nat → Word → State → StringResult → Prop where
  | zeroCell {a : Word} {s t : State} (h : memRead a s = .ok 0x0000#16 t) : StringRun bytesOf 1 a s (.done t)
  | readFails {a : Word} {s t : State} {r : FatalReason} (h : memRead a s = .fatal r t) :
      StringRun bytesOf 1 a s (.fatal r t)
  | writeFails {a c : Word} {s s1 t : State} {r : FatalReason} (h : memRead a s = .ok c s1) (hc : c ≠ 0x0000#16)
      (hw : outWriteAll (bytesOf c) s1 = .fatal r t) : StringRun bytesOf 1 a s (.fatal r t)
  | cell {n : Nat} {a c : Word} {s s1 s2 : State} {e : StringResult} (h : memRead a s = .ok c s1)
      (hc : c ≠ 0x0000#16) (hw : outWriteAll (bytesOf c) s1 = .ok () s2)
      (next : StringRun bytesOf n (a + 1#16) s2 e) : StringRun bytesOf (n + 1) a s e

/-- The same loop going on: from the cell at `a` in state `s` it reads `n` cells, none of them zero, without an error, and
stands in state `t` with every byte of them written. -/
inductive StringGoesOn (bytesOf : Word → List Byte) : Nat → Word → State → State → Prop where
  | start {a : Word} {s : State} : StringGoesOn bytesOf 0 a s s
  | cell {n : Nat} {a c : Word} {s s1 s2 t : State} (h : memRead a s = .ok c s1) (hc : c ≠ 0x0000#16)
      (hw : outWriteAll (bytesOf c) s1 = .ok () s2) (next : StringGoesOn bytesOf n (a + 1#16) s2 t) :
      StringGoesOn bytesOf (n + 1) a s t

/-- What a string call answers once its loop has ended: the flush of R130, then the next cycle; or the fatal error. -/
def stringCallEnds (e : StringResult) (o : Outcome) : Prop :=
  match e with
  | .done t =>
    (∀ u, outFlush t = .ok () u → o = .next { u with busy := none }) ∧
      (∀ r u, outFlush t = .fatal r u → o = .next (faulted u r))
  | .fatal r t => o = .next (faulted t r)
  | .more _ _ => False

end Claims

end Sys2Proof
end

