-- ==== Sys2Proof/Certificates/Slice0/Obligations.lean ====
section
/-! DEFINITION. The statements for the provers. Each docstring names the rule of spec/ it formalises, and the model's
own choice (with its row of notes/assumptions/) where a clause rests on one. -/

open Sys2Proof Sys2Proof.Machine Sys2Proof.Claims

/-! ## Encoding -/

/-- Decoding the encoding of a well-formed instruction gives it back, whatever its operands (30_encoding.md,
section 3). -/
def Obligations.DecodeOfEncodeIsTheInstruction : Prop :=
  ∀ i : Instr, i.wf = true → decode (encode i) = i

/-- Every word decodes to a well-formed row, and its canonical word differs from it at most in the bits that row
ignores (30_encoding.md R75 to R89). -/
def Obligations.EncodeOfDecodeKeepsEveryUsedBit : Prop :=
  ∀ w : Word, (decode w).wf = true ∧
    encode (decode w) &&& ~~~(ignoredBits (decode w)) = w &&& ~~~(ignoredBits (decode w))

/-- Bits that no field uses never change what a word decodes to (R75; the spec's own decision D4,
notes/assumptions/2.md). -/
def Obligations.IgnoredBitsNeverChangeTheInstruction : Prop :=
  ∀ w m : Word, decode (w ^^^ (m &&& ignoredBits (decode w))) = decode w

/-- Words written out from the formats of R76 to R85, one for each shape of operands, decode to the instructions they stand
for. -/
def Obligations.WrittenOutWordsDecode : Prop :=
  decode 0b0001_000_001_0_00_010#16 = .addReg .r0 .r1 .r2 ∧
  decode 0b0101_001_001_1_10000#16 = .andImm .r1 .r1 0b10000#5 ∧
  decode 0b1001_011_101_111111#16 = .notReg .r3 .r5 ∧
  decode 0b0110_001_010_100000#16 = .ldr .r1 .r2 0b100000#6 ∧
  decode 0b1011_001_000000011#16 = .sti .r1 0b000000011#9 ∧
  decode 0b0000_1_0_1_000000101#16 = .br true false true 0b000000101#9 ∧
  decode 0b1100_000_110_000000#16 = .jmp .r6 ∧
  decode 0b0100_1_10000000000#16 = .jsr 0b10000000000#11 ∧
  decode 0b0100_0_00_010_000000#16 = .jsrr .r2 ∧
  decode 0b1111_0000_00100110#16 = .trapInU16 ∧
  decode 0b1111_0000_00101000#16 = .trapUnsupported 0x28#8 ∧
  decode 0b1000_000000000001#16 = .rtiReserved 1#12 ∧
  decode 0b1101_100000000000#16 = .unusedReserved 0x800#12

/-- Sign extension is the masking the source defines, for the four widths in use (00_scope.md R9). -/
def Obligations.SignExtensionIsTheMaskForm : Prop :=
  (∀ f : BitVec 5, sext f = if f.getLsbD 4 = true then f.setWidth 16 ||| (0xFFFF#16 <<< 5) else f.setWidth 16) ∧
  (∀ f : BitVec 6, sext f = if f.getLsbD 5 = true then f.setWidth 16 ||| (0xFFFF#16 <<< 6) else f.setWidth 16) ∧
  (∀ f : BitVec 9, sext f = if f.getLsbD 8 = true then f.setWidth 16 ||| (0xFFFF#16 <<< 9) else f.setWidth 16) ∧
  (∀ f : BitVec 11, sext f = if f.getLsbD 10 = true then f.setWidth 16 ||| (0xFFFF#16 <<< 11) else f.setWidth 16)

/-! ## The cycle -/

/-- A running machine with no call in progress reads the word at pc through the read path, advances pc and executes the
decoded instruction, which sees pc already advanced (40_engine.md R94, R96). Away from KBSR_ADDR the word is the cell at
pc. The fetch can raise Fatal(IO) only at KBSR_ADDR. -/
def Obligations.StepRunsTheDecodedInstruction : Prop :=
  ∀ s : State, s.runState = .running → s.busy = none →
    (s.pc ≠ kbsrAddr → step s = exec (decode (s.cell s.pc)) { s with pc := s.pc + 1#16 }) ∧
    (∀ w s1, memRead s.pc s = .ok w s1 → step s = exec (decode w) { s1 with pc := s1.pc + 1#16 }) ∧
    (∀ r s1, memRead s.pc s = .fatal r s1 →
      r = .io ∧ s.pc = kbsrAddr ∧ ∃ t, step s = .next t ∧ t.runState = .faulted .io)

/-- A fetch at KBSR_ADDR runs the polled value: x8000, a decode error, or x0000, a branch never taken
(70_reset_and_hazards.md R163). On a poll Error the run ends in Fatal(IO), with pc still at KBSR_ADDR, since the
pseudocode of 40_engine.md R99 raises before the increment (notes/assumptions/17.md). What the end of the
stream answers is notes/assumptions/12.md. -/
def Obligations.FetchAtKbsrRunsThePolledValue : Prop :=
  ∀ s : State, s.runState = .running → s.busy = none → s.pc = kbsrAddr →
    (∀ b rest, s.input = .byte b :: rest →
      step s = .next (faulted { s with
        input := rest, pc := kbsrAddr + 1#16,
        mem := (s.mem.set kbsrAddr.toNat 0x8000#16).set kbdrAddr.toNat (b.setWidth 16) } .decode)) ∧
    (∀ rest, s.input = .noByte :: rest →
      step s = .next { s with input := rest, pc := kbsrAddr + 1#16, mem := s.mem.set kbsrAddr.toNat 0x0000#16 }) ∧
    (s.input = [] → step s = .next { s with pc := kbsrAddr + 1#16, mem := s.mem.set kbsrAddr.toNat 0x0000#16 }) ∧
    (∀ rest, s.input = .error :: rest →
      step s = .next (faulted { s with input := rest } .io))

/-- HALTED and FAULTED are terminal (10_state.md R32): nothing changes, however long the machine is run. R93 and R99 run no
cycle there, and that the model's step then answers the same state is its own choice (notes/assumptions/16.md). -/
def Obligations.TerminalStatesNeverChange : Prop :=
  ∀ (s : State) (n : Nat), s.runState ≠ .running → step s = .next s ∧ runFor n s = s

/-- The machine never stops outside its own rules: every step answers a next state, since every fatal error is one
(60_exceptions.md R134; the model's choice, notes/assumptions/15.md). That a step from HALTED or FAULTED answers the same
state, and that a call that waits is held over several steps, are its choices too (notes/assumptions/16.md, 13.md). -/
def Obligations.EveryStepAnswersANextState : Prop :=
  ∀ s : State, ∃ t, step s = .next t

/-- "The only transition from RUNNING to HALTED is the execute phase of TRAP HALT" (40_engine.md R97). -/
def Obligations.OnlyTrapHaltReachesHalted : Prop :=
  ∀ s t : State, step s = .next t → s.runState = .running → t.runState = .halted →
    s.busy = none ∧ ∃ w s1, memRead s.pc s = .ok w s1 ∧ decode w = .trapHalt

/-! ## Fatal errors -/

/-- DECODE is raised by exactly the words of the two reserved opcodes and the TRAP words with an unsupported
vector: "No other word raises it" (60_exceptions.md R135). -/
def Obligations.DecodeErrorsAreExactlyTheReservedWords : Prop :=
  ∀ (s : State) (w : Word) (s1 : State), s.runState = .running → s.busy = none → memRead s.pc s = .ok w s1 →
    ((∃ t, step s = .next t ∧ t.runState = .faulted .decode) ↔
      (w.extractLsb' 12 4 = 0x8#4 ∨ w.extractLsb' 12 4 = 0xD#4 ∨
        (w.extractLsb' 12 4 = 0xF#4 ∧ w.extractLsb' 0 8 ∉ vectorList trapVectors)))

/-- Executing a reserved word raises Fatal(DECODE) and changes nothing else (30_encoding.md R86, R87; 40_engine.md R95, which
the spec marks as derived, and R99). That such a word decodes to a row of its own, which raises when it is executed, is
the model's choice (notes/assumptions/20.md). -/
def Obligations.ReservedWordsRaiseDecode : Prop :=
  (∀ (w : Word) (s : State), w &&& 0xF000#16 = 0x8000#16 →
    decode w = .rtiReserved (w.extractLsb' 0 12) ∧
    exec (.rtiReserved (w.extractLsb' 0 12)) s = .next (faulted s .decode)) ∧
  (∀ (w : Word) (s : State), w &&& 0xF000#16 = 0xD000#16 →
    decode w = .unusedReserved (w.extractLsb' 0 12) ∧
    exec (.unusedReserved (w.extractLsb' 0 12)) s = .next (faulted s .decode)) ∧
  (∀ (w : Word) (s : State), w &&& 0xF000#16 = 0xF000#16 → w.extractLsb' 0 8 ∉ vectorList trapVectors →
    decode w = .trapUnsupported (w.extractLsb' 0 8) ∧
    exec (.trapUnsupported (w.extractLsb' 0 8)) s = .next (faulted s .decode))

/-- Where a fatal error can come from (60_exceptions.md R135 to R137): DECODE from a reserved row alone, PARSE from IN-U16
alone, IO from an instruction that reads memory or runs a console call, and only if the host answers an error (the lists of its
answers are notes/assumptions/12.md and 14.md). -/
def Obligations.FaultReasonsHaveTheirSources : Prop :=
  ∀ (i : Instr) (s t : State) (r : FatalReason), exec i s = .next t → s.runState = .running →
    t.runState = .faulted r →
    match r with
    | .decode => i.valid = false
    | .parse => i = .trapInU16
    | .io =>
      (readsMemory i = true ∨ i ∈ [.trapGetc, .trapOut, .trapIn, .trapInU16, .trapOutU16]) ∧
        (InEvent.error ∈ s.input ∨ PortAnswer.error ∈ s.outAnswers)

/-- "After any fatal error, PC holds the faulting instruction's address plus 1" (60_exceptions.md R139). Where the fetch's own
read fails, which happens only at KBSR_ADDR, no instruction has been fetched, 40_engine.md R94 and R99 raise before the
increment, and pc is unchanged (notes/assumptions/17.md). A trap call in progress (notes/assumptions/13.md) has its
address plus 1 in pc already, and an error leaves it. -/
def Obligations.FatalErrorsLeavePcAfterTheWord : Prop :=
  ∀ s t : State, s.runState = .running → step s = .next t → t.runState.isFaulted = true →
    (s.busy = none →
      (∀ w s1, memRead s.pc s = .ok w s1 → t.pc = s.pc + 1#16) ∧
      (∀ r s1, memRead s.pc s = .fatal r s1 → t.pc = s.pc)) ∧
    (s.busy ≠ none → t.pc = s.pc)

/-! ## Invariants -/

/-- Every step keeps the machine invariant: one condition flag, canonical memory, a call in progress only while running,
decimal digits, and no byte left unflushed when the next cycle fetches (10_state.md R25, R39; 45_trap.md R130; the
model's own parts are notes/assumptions/13.md, 16.md and 18.md). -/
def Obligations.EveryStepKeepsTheInvariant : Prop :=
  ∀ s t : State, Inv s → step s = .next t → Inv t

/-- The state after reset meets the machine invariant. -/
def Obligations.ResetMeetsTheInvariant : Prop := Inv State.reset

/-- "Exactly one of the three flags is set at a time. This holds from reset and after every update" (10_state.md R25), for a
run of any length from any state with one flag set, and for the reset state. The steps of a call in progress and of a run
that has ended are the model's (notes/assumptions/13.md, 16.md). -/
def Obligations.CondAlwaysHoldsExactlyOneFlag : Prop :=
  (State.reset.cond = 0x0001#16 ∨ State.reset.cond = 0x0002#16 ∨ State.reset.cond = 0x0004#16) ∧
  ∀ (n : Nat) (s : State), (s.cond = 0x0001#16 ∨ s.cond = 0x0002#16 ∨ s.cond = 0x0004#16) →
    ((runFor n s).cond = 0x0001#16 ∨ (runFor n s).cond = 0x0002#16 ∨ (runFor n s).cond = 0x0004#16)

/-- The ports run in order (70_reset_and_hazards.md R156): no byte written is lost or reordered on its way to the host, none is
taken back, and the input stream is taken from its front. The lists are the model's (notes/assumptions/12.md, 14.md),
and so are the steps of a call in progress and of a run that has ended (notes/assumptions/13.md, 16.md). -/
def Obligations.PortsKeepTheOrderOfBytes : Prop :=
  ∀ s t : State, step s = .next t →
    s.outDelivered <+: t.outDelivered ∧
    (s.outDelivered ++ s.outPending) <+: (t.outDelivered ++ t.outPending) ∧
    t.input <:+ s.input

/-! ## Who writes what -/

/-- The complete list of writes to general registers (10_state.md R21): every other register keeps its value. -/
def Obligations.OnlyListedRegistersAreWritten : Prop :=
  ∀ (i : Instr) (s t : State) (r : Reg), exec i s = .next t → r ∉ writesRegs i → t.readReg r = s.readReg r

/-- PC is written only by the fetch's increment and by the execute phase of a taken BR, JMP, JSR and JSRR; no trap changes
it, not even one that goes on over several steps (10_state.md R23). So a step leaves pc, or adds 1 to it, or ran one of
those four. The steps of a call in progress and of a run that has ended, which leave pc, are the model's
(notes/assumptions/13.md, 16.md), and a fetch that fails leaves pc (notes/assumptions/17.md). -/
def Obligations.OnlyFetchAndControlTransfersWritePc : Prop :=
  (∀ (i : Instr) (s t : State), exec i s = .next t → writesPc i = false → t.pc = s.pc) ∧
  (∀ (n z p : Bool) (o : BitVec 9) (s : State), branchTaken n z p s = false → exec (.br n z p o) s = .next s) ∧
  (∀ s t : State, s.runState = .running → s.busy ≠ none → step s = .next t → t.pc = s.pc) ∧
  (∀ s t : State, step s = .next t →
    t.pc = s.pc ∨ t.pc = s.pc + 1#16 ∨
      (s.runState = .running ∧ s.busy = none ∧ ∃ w s1, memRead s.pc s = .ok w s1 ∧ writesPc (decode w) = true))

/-- Exactly ADD, AND, NOT, LD, LDI, LDR and LEA apply SetCC, to the register they write; every other instruction leaves COND
(10_state.md R28; for the traps the spec's own decision D14, notes/assumptions/9.md). -/
def Obligations.ExactlyTheListedInstructionsSetCond : Prop :=
  ∀ (i : Instr) (s t : State), exec i s = .next t → s.runState = .running →
    (setsCond i = false → t.cond = s.cond) ∧
    (setsCond i = true → t.runState = .running → ∀ d ∈ writesRegs i, t.cond = ccOf (t.readReg d))

/-- COND is "consulted only by the branch instruction" (10_state.md R29): run any other instruction from two states that
differ in COND alone, and the results differ at most in COND, so no register and no cell takes COND's value. And no
instruction writes COND other than through SetCC. -/
def Obligations.CondIsConsultedOnlyByBranches : Prop :=
  (∀ (i : Instr) (s t : State) (c : Word), (∀ n z p o, i ≠ .br n z p o) → exec i s = .next t →
    ∃ u, exec i { s with cond := c } = .next u ∧ { u with cond := t.cond } = t) ∧
  (∀ (i : Instr) (s t : State), exec i s = .next t →
    t.cond = s.cond ∨ ∃ d ∈ writesRegs i, t.cond = ccOf (t.readReg d))

/-- The only things that write a cell during a run are ST, STI, STR and the KBSR poll (20_memory.md R44): an instruction that
is no store changes at most the two keyboard cells, and no cell if it reads no memory. -/
def Obligations.OnlyStoresAndThePollWriteMemory : Prop :=
  ∀ (i : Instr) (s t : State), exec i s = .next t → isStore i = false →
    (∀ a, a ≠ kbsrAddr → a ≠ kbdrAddr → t.cell a = s.cell a) ∧ (readsMemory i = false → t.mem = s.mem)

/-- The frame of ST, STI and STR (43_store.md): with the address the meaning computes, every cell but that one reads as in the
state the store is made in (for STI, the one its pointer read leaves, which differs from the state before at most in the
keyboard cells); no register, no flag, no port, no halt state changes. -/
def Obligations.StoresChangeOnlyTheirTarget : Prop :=
  ∀ (i : Instr) (s s1 t : State) (p : Word), storeTarget i s = some (p, s1) → exec i s = .next t →
    (∀ a, a ≠ p → t.cell a = s1.cell a) ∧
    (∀ a, a ≠ kbsrAddr → a ≠ kbdrAddr → s1.cell a = s.cell a) ∧
    ((∀ r o, i ≠ .sti r o) → s1 = s) ∧
    t.regs = s.regs ∧ t.pc = s.pc ∧ t.cond = s.cond ∧ t.runState = s.runState ∧ t.busy = s.busy ∧
    t.input = s1.input ∧ t.outAnswers = s.outAnswers ∧ t.outPending = s.outPending ∧
    t.outDelivered = s.outDelivered

/-- The frame of every instruction that is no trap call: the output port is untouched, the input port too unless memory is
read, and the halt state and the call in progress change only by a fatal error. -/
def Obligations.OnlyTrapsUseTheConsole : Prop :=
  ∀ (i : Instr) (s t : State), exec i s = .next t →
    i ∉ [.trapGetc, .trapOut, .trapPuts, .trapIn, .trapPutsp, .trapHalt, .trapInU16, .trapOutU16] →
    t.outAnswers = s.outAnswers ∧ t.outPending = s.outPending ∧ t.outDelivered = s.outDelivered ∧
    (readsMemory i = false → t.input = s.input) ∧
    ((t.runState = s.runState ∧ t.busy = s.busy) ∨ (t.runState.isFaulted = true ∧ t.busy = none))

/-! ## Operate instructions -/

/-- ADD, register form (41_operate.md R103). -/
def Obligations.AddRegisterForm : Prop :=
  ∀ (w : Word) (s : State), w &&& 0xF020#16 = 0x1000#16 →
    decode w = .addReg (regAt w 9) (regAt w 6) (regAt w 0) ∧
    exec (.addReg (regAt w 9) (regAt w 6) (regAt w 0)) s =
      .next (withResult s (regAt w 9) (s.readReg (regAt w 6) + s.readReg (regAt w 0)))

/-- ADD, immediate form (R104). -/
def Obligations.AddImmediateForm : Prop :=
  ∀ (w : Word) (s : State), w &&& 0xF020#16 = 0x1020#16 →
    decode w = .addImm (regAt w 9) (regAt w 6) (w.extractLsb' 0 5) ∧
    exec (.addImm (regAt w 9) (regAt w 6) (w.extractLsb' 0 5)) s =
      .next (withResult s (regAt w 9) (s.readReg (regAt w 6) + (w.extractLsb' 0 5).signExtend 16))

/-- AND, register form (R105). -/
def Obligations.AndRegisterForm : Prop :=
  ∀ (w : Word) (s : State), w &&& 0xF020#16 = 0x5000#16 →
    decode w = .andReg (regAt w 9) (regAt w 6) (regAt w 0) ∧
    exec (.andReg (regAt w 9) (regAt w 6) (regAt w 0)) s =
      .next (withResult s (regAt w 9) (s.readReg (regAt w 6) &&& s.readReg (regAt w 0)))

/-- AND, immediate form (R106). -/
def Obligations.AndImmediateForm : Prop :=
  ∀ (w : Word) (s : State), w &&& 0xF020#16 = 0x5020#16 →
    decode w = .andImm (regAt w 9) (regAt w 6) (w.extractLsb' 0 5) ∧
    exec (.andImm (regAt w 9) (regAt w 6) (w.extractLsb' 0 5)) s =
      .next (withResult s (regAt w 9) (s.readReg (regAt w 6) &&& (w.extractLsb' 0 5).signExtend 16))

/-- NOT (R107). -/
def Obligations.NotComplementsItsSource : Prop :=
  ∀ (w : Word) (s : State), w &&& 0xF000#16 = 0x9000#16 →
    decode w = .notReg (regAt w 9) (regAt w 6) ∧
    exec (.notReg (regAt w 9) (regAt w 6)) s = .next (withResult s (regAt w 9) (~~~ s.readReg (regAt w 6)))

/-! ## Memory reads and loads -/

/-- The one read path: any address but KBSR_ADDR is a pure lookup, KBDR_ADDR too, and KBSR_ADDR polls first
(20_memory.md R48, R49). Rests on the spec's decisions D6 to D8 (notes/assumptions/4.md, 5.md); the answer of an
ended stream is the model's (notes/assumptions/12.md). -/
def Obligations.ReadsOfKbsrPollAndOtherReadsAreLookups : Prop :=
  (∀ (a : Word) (s : State), a ≠ kbsrAddr → memRead a s = .ok (s.cell a) s) ∧
  (∀ (s : State) (b : Byte) (rest : List InEvent), s.input = .byte b :: rest →
    ∃ t, memRead kbsrAddr s = .ok 0x8000#16 t ∧ t.cell kbsrAddr = 0x8000#16 ∧ t.cell kbdrAddr = b.setWidth 16 ∧
      t.input = rest ∧ ∀ a, a ≠ kbsrAddr → a ≠ kbdrAddr → t.cell a = s.cell a) ∧
  (∀ (s : State) (rest : List InEvent), (s.input = .noByte :: rest ∨ (s.input = [] ∧ rest = [])) →
    ∃ t, memRead kbsrAddr s = .ok 0x0000#16 t ∧ t.cell kbsrAddr = 0x0000#16 ∧ t.input = rest ∧
      ∀ a, a ≠ kbsrAddr → t.cell a = s.cell a) ∧
  (∀ (s : State) (rest : List InEvent), s.input = .error :: rest →
    memRead kbsrAddr s = .fatal .io { s with input := rest })

/-- LD (42_load.md R108). -/
def Obligations.LdLoadsTheCellAtPcPlusOffset : Prop :=
  ∀ (w : Word) (s : State) (ea : Word), w &&& 0xF000#16 = 0x2000#16 →
    ea = s.pc + (w.extractLsb' 0 9).signExtend 16 →
    decode w = .ld (regAt w 9) (w.extractLsb' 0 9) ∧
    (ea ≠ kbsrAddr → exec (.ld (regAt w 9) (w.extractLsb' 0 9)) s = .next (withResult s (regAt w 9) (s.cell ea))) ∧
    (∀ v s1, memRead ea s = .ok v s1 →
      exec (.ld (regAt w 9) (w.extractLsb' 0 9)) s = .next (withResult s1 (regAt w 9) v)) ∧
    (∀ r s1, memRead ea s = .fatal r s1 →
      exec (.ld (regAt w 9) (w.extractLsb' 0 9)) s = .next (faulted s1 r) ∧ r = .io ∧ ea = kbsrAddr)

/-- LDI (R109): the pointer first, then the cell it points to. -/
def Obligations.LdiLoadsThroughThePointer : Prop :=
  ∀ (w : Word) (s : State) (ea : Word), w &&& 0xF000#16 = 0xA000#16 →
    ea = s.pc + (w.extractLsb' 0 9).signExtend 16 →
    decode w = .ldi (regAt w 9) (w.extractLsb' 0 9) ∧
    (ea ≠ kbsrAddr → s.cell ea ≠ kbsrAddr →
      exec (.ldi (regAt w 9) (w.extractLsb' 0 9)) s = .next (withResult s (regAt w 9) (s.cell (s.cell ea)))) ∧
    (∀ p s1 v s2, memRead ea s = .ok p s1 → memRead p s1 = .ok v s2 →
      exec (.ldi (regAt w 9) (w.extractLsb' 0 9)) s = .next (withResult s2 (regAt w 9) v)) ∧
    (∀ r s1, memRead ea s = .fatal r s1 →
      exec (.ldi (regAt w 9) (w.extractLsb' 0 9)) s = .next (faulted s1 r) ∧ r = .io ∧ ea = kbsrAddr) ∧
    (∀ p s1 r s2, memRead ea s = .ok p s1 → memRead p s1 = .fatal r s2 →
      exec (.ldi (regAt w 9) (w.extractLsb' 0 9)) s = .next (faulted s2 r) ∧ r = .io ∧ p = kbsrAddr)

/-- LDR (R110). -/
def Obligations.LdrLoadsTheCellAtBasePlusOffset : Prop :=
  ∀ (w : Word) (s : State) (ea : Word), w &&& 0xF000#16 = 0x6000#16 →
    ea = s.readReg (regAt w 6) + (w.extractLsb' 0 6).signExtend 16 →
    decode w = .ldr (regAt w 9) (regAt w 6) (w.extractLsb' 0 6) ∧
    (ea ≠ kbsrAddr →
      exec (.ldr (regAt w 9) (regAt w 6) (w.extractLsb' 0 6)) s = .next (withResult s (regAt w 9) (s.cell ea))) ∧
    (∀ v s1, memRead ea s = .ok v s1 →
      exec (.ldr (regAt w 9) (regAt w 6) (w.extractLsb' 0 6)) s = .next (withResult s1 (regAt w 9) v)) ∧
    (∀ r s1, memRead ea s = .fatal r s1 →
      exec (.ldr (regAt w 9) (regAt w 6) (w.extractLsb' 0 6)) s = .next (faulted s1 r) ∧ r = .io ∧ ea = kbsrAddr)

/-- LEA (R111): an address, not a load; COND is set, memory is not read. -/
def Obligations.LeaWritesTheAddress : Prop :=
  ∀ (w : Word) (s : State), w &&& 0xF000#16 = 0xE000#16 →
    decode w = .lea (regAt w 9) (w.extractLsb' 0 9) ∧
    exec (.lea (regAt w 9) (w.extractLsb' 0 9)) s =
      .next (withResult s (regAt w 9) (s.pc + (w.extractLsb' 0 9).signExtend 16))

/-! ## Stores -/

/-- ST (43_store.md R112). -/
def Obligations.StWritesTheCellAtPcPlusOffset : Prop :=
  ∀ (w : Word) (s : State) (ea : Word), w &&& 0xF000#16 = 0x3000#16 →
    ea = s.pc + (w.extractLsb' 0 9).signExtend 16 →
    decode w = .st (regAt w 9) (w.extractLsb' 0 9) ∧
    ∃ t, exec (.st (regAt w 9) (w.extractLsb' 0 9)) s = .next t ∧
      (∀ a, t.cell a = if a = ea then s.readReg (regAt w 9) else s.cell a) ∧ { t with mem := s.mem } = s

/-- STI (R113): the pointer through the read path, then a plain write of the register. -/
def Obligations.StiWritesThroughThePointer : Prop :=
  ∀ (w : Word) (s : State) (ea : Word), w &&& 0xF000#16 = 0xB000#16 →
    ea = s.pc + (w.extractLsb' 0 9).signExtend 16 →
    decode w = .sti (regAt w 9) (w.extractLsb' 0 9) ∧
    (ea ≠ kbsrAddr → ∃ t, exec (.sti (regAt w 9) (w.extractLsb' 0 9)) s = .next t ∧
      (∀ a, t.cell a = if a = s.cell ea then s.readReg (regAt w 9) else s.cell a) ∧ { t with mem := s.mem } = s) ∧
    (∀ p s1, memRead ea s = .ok p s1 → ∃ t, exec (.sti (regAt w 9) (w.extractLsb' 0 9)) s = .next t ∧
      (∀ a, t.cell a = if a = p then s.readReg (regAt w 9) else s1.cell a) ∧ { t with mem := s1.mem } = s1) ∧
    (∀ r s1, memRead ea s = .fatal r s1 →
      exec (.sti (regAt w 9) (w.extractLsb' 0 9)) s = .next (faulted s1 r) ∧ r = .io ∧ ea = kbsrAddr)

/-- STR (R114). -/
def Obligations.StrWritesTheCellAtBasePlusOffset : Prop :=
  ∀ (w : Word) (s : State) (ea : Word), w &&& 0xF000#16 = 0x7000#16 →
    ea = s.readReg (regAt w 6) + (w.extractLsb' 0 6).signExtend 16 →
    decode w = .str (regAt w 9) (regAt w 6) (w.extractLsb' 0 6) ∧
    ∃ t, exec (.str (regAt w 9) (regAt w 6) (w.extractLsb' 0 6)) s = .next t ∧
      (∀ a, t.cell a = if a = ea then s.readReg (regAt w 9) else s.cell a) ∧ { t with mem := s.mem } = s

/-- The source's round trip: a value stored by STI is loaded back by LDI through the same pointer cell, when the pointer and
the target are different cells and neither is KBSR (R109, R113). -/
def Obligations.StiThenLdiGivesTheValueBack : Prop :=
  ∀ (s t : State) (r d : Reg) (o o2 : BitVec 9) (q : Word),
    pcRelative o s ≠ kbsrAddr → s.cell (pcRelative o s) ≠ pcRelative o s → s.cell (pcRelative o s) ≠ kbsrAddr →
    q + o2.signExtend 16 = pcRelative o s → exec (.sti r o) s = .next t →
    ∃ u, exec (.ldi d o2) { t with pc := q } = .next u ∧ u.readReg d = s.readReg r

/-- A store into the next word is what the next cycle executes (20_memory.md R64; 70_reset_and_hazards.md R158). -/
def Obligations.StoreIntoTheNextWordIsExecuted : Prop :=
  ∀ (s : State) (r : Reg), s.runState = .running → s.busy = none → s.pc ≠ kbsrAddr → s.pc + 1#16 ≠ kbsrAddr →
    decode (s.cell s.pc) = .st r 0#9 →
    ∃ t, step s = .next t ∧ step t = exec (decode (s.readReg r)) { t with pc := s.pc + 2#16 }

/-! ## Control transfers -/

/-- BR (44_control.md R115): taken when the mask and COND share a flag; each flag of COND is tested by its own bit of
the word, n at bit 11, z at bit 10, p at bit 9. -/
def Obligations.BrTestsTheFlagItsMaskNames : Prop :=
  ∀ (w : Word) (s : State), w &&& 0xF000#16 = 0x0000#16 →
    decode w = .br (w.getLsbD 11) (w.getLsbD 10) (w.getLsbD 9) (w.extractLsb' 0 9) ∧
    exec (.br (w.getLsbD 11) (w.getLsbD 10) (w.getLsbD 9) (w.extractLsb' 0 9)) s =
      .next (if (w.extractLsb' 9 3).setWidth 16 &&& s.cond ≠ 0x0000#16
        then { s with pc := s.pc + (w.extractLsb' 0 9).signExtend 16 } else s) ∧
    (s.cond = 0x0004#16 → ((w.extractLsb' 9 3).setWidth 16 &&& s.cond ≠ 0x0000#16 ↔ w.getLsbD 11 = true)) ∧
    (s.cond = 0x0002#16 → ((w.extractLsb' 9 3).setWidth 16 &&& s.cond ≠ 0x0000#16 ↔ w.getLsbD 10 = true)) ∧
    (s.cond = 0x0001#16 → ((w.extractLsb' 9 3).setWidth 16 &&& s.cond ≠ 0x0000#16 ↔ w.getLsbD 9 = true))

/-- JMP (R116). -/
def Obligations.JmpGoesToItsBase : Prop :=
  ∀ (w : Word) (s : State), w &&& 0xF000#16 = 0xC000#16 →
    decode w = .jmp (regAt w 6) ∧ exec (.jmp (regAt w 6)) s = .next { s with pc := s.readReg (regAt w 6) }

/-- JSR (R117). -/
def Obligations.JsrLinksAndJumps : Prop :=
  ∀ (w : Word) (s : State), w &&& 0xF800#16 = 0x4800#16 →
    decode w = .jsr (w.extractLsb' 0 11) ∧
    exec (.jsr (w.extractLsb' 0 11)) s =
      .next { s with regs := s.regs.write .r7 s.pc, pc := s.pc + (w.extractLsb' 0 11).signExtend 16 }

/-- JSRR (R118): the link into R7, then the base. For every base but R7 the target is the base's value, under either value of
JSRR_BASE_SAMPLE; for `JSRR R7` it is what the configured value of that parameter says (the spec's decision D13,
notes/assumptions/8.md). -/
def Obligations.JsrrLinksAndJumpsToItsBase : Prop :=
  (∀ (w : Word) (s : State), w &&& 0xF800#16 = 0x4000#16 →
    decode w = .jsrr (regAt w 6) ∧
    exec (.jsrr (regAt w 6)) s =
      .next { s with
        regs := s.regs.write .r7 s.pc,
        pc := if regAt w 6 = .r7 ∧ jsrrBaseSample = .afterLink then s.pc else s.readReg (regAt w 6) }) ∧
  (∀ (order : JsrrBaseSample) (b : Reg) (s : State), b ≠ .r7 →
    jsrrWith order b s = { s with regs := s.regs.write .r7 s.pc, pc := s.readReg b })

/-! ## Traps -/

/-- GETC (45_trap.md R122): the next byte of the stream, zero-extended, into R0, after the link; an error is
Fatal(IO), with R7 written. That the "no byte yet" answers before it are taken is the model's choice
(notes/assumptions/12.md). -/
def Obligations.GetcReadsOneByteIntoR0 : Prop :=
  (∀ w : Word, w &&& 0xF0FF#16 = 0xF020#16 → decode w = .trapGetc) ∧
  (∀ (s : State) (pre rest : List InEvent) (b : Byte), s.input = pre ++ .byte b :: rest → (∀ e ∈ pre, e = .noByte) →
    exec .trapGetc s = .next { linked s with
      regs := (linked s).regs.write .r0 (b.setWidth 16), input := rest, busy := none }) ∧
  (∀ (s : State) (pre rest : List InEvent), s.input = pre ++ .error :: rest → (∀ e ∈ pre, e = .noByte) →
    exec .trapGetc s = .next (faulted { linked s with input := rest } .io))

/-- OUT (R123): bits 7:0 of R0, written and flushed, after the link; either transaction's Error is Fatal(IO), with the effects
made before it. That a failed OutWrite writes nothing and a failed OutFlush delivers nothing is the model's choice
(notes/assumptions/14.md). -/
def Obligations.OutWritesTheLowByteOfR0 : Prop :=
  (∀ w : Word, w &&& 0xF0FF#16 = 0xF021#16 → decode w = .trapOut) ∧
  (∀ s : State, outOk 2 s → exec .trapOut s = .next { linked s with
    outAnswers := s.outAnswers.drop 2, outPending := [],
    outDelivered := s.outDelivered ++ (s.outPending ++ [(s.readReg .r0).extractLsb' 0 8]), busy := none }) ∧
  (∀ (s : State) (rest : List PortAnswer), s.outAnswers = .error :: rest →
    exec .trapOut s = .next (faulted { linked s with outAnswers := rest } .io)) ∧
  (∀ (s : State) (rest : List PortAnswer), s.outAnswers = .ok :: .error :: rest →
    exec .trapOut s = .next (faulted { linked s with
      outAnswers := rest, outPending := s.outPending ++ [(s.readReg .r0).extractLsb' 0 8] } .io))

/-- PUTS (R124) on a string of nonzero cells `cs` at R0 that a zero cell ends, away from KBSR, to a host that accepts it: the
low byte of each cell, in order, then one flush; the zero cell is not written. -/
def Obligations.PutsWritesTheLowByteOfEachCell : Prop :=
  (∀ w : Word, w &&& 0xF0FF#16 = 0xF022#16 → decode w = .trapPuts) ∧
  (∀ (s : State) (cs : List Word), cs.length < 65536 → (∀ c ∈ cs, c ≠ 0x0000#16) →
    (∀ (k : Nat) (h : k < cs.length), s.cell (s.readReg .r0 + BitVec.ofNat 16 k) = cs[k]) →
    s.cell (s.readReg .r0 + BitVec.ofNat 16 cs.length) = 0x0000#16 →
    (∀ k : Nat, k ≤ cs.length → s.readReg .r0 + BitVec.ofNat 16 k ≠ kbsrAddr) → outOk (cs.length + 1) s →
    exec .trapPuts s = .next { linked s with
      outAnswers := s.outAnswers.drop (cs.length + 1), outPending := [],
      outDelivered := s.outDelivered ++ (s.outPending ++ cs.map fun c => c.extractLsb' 0 8), busy := none })

/-- PUTSP (R126) on such a string: both bytes of every cell, the high byte first, an x00 byte too. -/
def Obligations.PutspWritesBothBytesHighFirst : Prop :=
  (∀ w : Word, w &&& 0xF0FF#16 = 0xF024#16 → decode w = .trapPutsp) ∧
  (∀ (s : State) (cs : List Word), cs.length < 65536 → (∀ c ∈ cs, c ≠ 0x0000#16) →
    (∀ (k : Nat) (h : k < cs.length), s.cell (s.readReg .r0 + BitVec.ofNat 16 k) = cs[k]) →
    s.cell (s.readReg .r0 + BitVec.ofNat 16 cs.length) = 0x0000#16 →
    (∀ k : Nat, k ≤ cs.length → s.readReg .r0 + BitVec.ofNat 16 k ≠ kbsrAddr) → outOk (2 * cs.length + 1) s →
    exec .trapPutsp s = .next { linked s with
      outAnswers := s.outAnswers.drop (2 * cs.length + 1), outPending := [],
      outDelivered := s.outDelivered ++ (s.outPending ++ cs.flatMap fun c => [c.extractLsb' 8 8, c.extractLsb' 0 8]),
      busy := none })

/-- PUTS and PUTSP run the loop of R124 and R126 as it stands, polls at KBSR and errors included, whenever it ends within the
65536 cells of one model step; and a call that goes on over several steps goes on with the same loop from its next cell.
When those 65536 cells have been read and none was zero, the step ends with the call in progress at the cell after them,
their bytes written and not flushed. That a step ends there is the model's choice (notes/assumptions/19.md). -/
def Obligations.StringCallsRunTheirLoop : Prop :=
  (∀ (n : Nat) (s : State) (a : Word) (e : StringResult), n ≤ 65536 →
    (StringRun putsBytes n (s.readReg .r0) (linked s) e → stringCallEnds e (exec .trapPuts s)) ∧
    (StringRun putspBytes n (s.readReg .r0) (linked s) e → stringCallEnds e (exec .trapPutsp s)) ∧
    (s.runState = .running → s.busy = some (.puts a) → StringRun putsBytes n a s e →
      stringCallEnds e (step s)) ∧
    (s.runState = .running → s.busy = some (.putsp a) → StringRun putspBytes n a s e →
      stringCallEnds e (step s))) ∧
  (∀ (s t : State) (a : Word),
    (StringGoesOn putsBytes 65536 (s.readReg .r0) (linked s) t →
      exec .trapPuts s = .next { t with busy := some (.puts (s.readReg .r0 + BitVec.ofNat 16 65536)) }) ∧
    (StringGoesOn putspBytes 65536 (s.readReg .r0) (linked s) t →
      exec .trapPutsp s = .next { t with busy := some (.putsp (s.readReg .r0 + BitVec.ofNat 16 65536)) }) ∧
    (s.runState = .running → s.busy = some (.puts a) → StringGoesOn putsBytes 65536 a s t →
      step s = .next { t with busy := some (.puts (a + BitVec.ofNat 16 65536)) }) ∧
    (s.runState = .running → s.busy = some (.putsp a) → StringGoesOn putspBytes 65536 a s t →
      step s = .next { t with busy := some (.putsp (a + BitVec.ofNat 16 65536)) }))

/-- "A string with no zero cell anywhere in memory never ends" (45_trap.md R124, and R126, which is "like PUTS"): with every
cell but KBSR nonzero, a nonzero byte ready at each poll and a host that accepts every byte, PUTS and PUTSP enter the call
from any state, and after any number of steps for which bytes are left the call is still in progress and no byte of it
has been delivered. A pass over memory a step, and how a call in progress is held, are the model's (notes/assumptions/13.md,
19.md), and so are the lists of the host's answers (notes/assumptions/12.md, 14.md). -/
def Obligations.StringsWithNoZeroCellNeverEnd : Prop :=
  ∀ (s : State) (b : Byte) (bs : List Byte) (more : List InEvent),
    s.runState = .running → (∀ a, a ≠ kbsrAddr → s.cell a ≠ 0x0000#16) → (∀ c ∈ b :: bs, c ≠ 0x00#8) →
    s.input = (b :: bs).map InEvent.byte ++ more → s.outAnswers = [] →
    ∀ call ∈ [(Instr.trapPuts, InProgress.puts (s.readReg .r0)), (Instr.trapPutsp, InProgress.putsp (s.readReg .r0))],
      ∃ t, exec call.1 s = .next t ∧
        ∀ n, n ≤ bs.length →
          (runFor n t).busy = some call.2 ∧ (runFor n t).runState = .running ∧
          (runFor n t).outDelivered = s.outDelivered

/-- IN (R125): like GETC, then the byte is echoed and flushed; an error ends the call with the effects made before it. That a
failed OutWrite writes nothing and a failed OutFlush delivers nothing is the model's choice (notes/assumptions/14.md), and
so are the "no byte yet" answers that are taken before the byte (notes/assumptions/12.md). -/
def Obligations.InReadsOneByteAndEchoesIt : Prop :=
  (∀ w : Word, w &&& 0xF0FF#16 = 0xF023#16 → decode w = .trapIn) ∧
  (∀ (s : State) (pre rest : List InEvent) (b : Byte), s.input = pre ++ .byte b :: rest → (∀ e ∈ pre, e = .noByte) →
    (outOk 2 s → exec .trapIn s = .next { linked s with
      regs := (linked s).regs.write .r0 (b.setWidth 16), input := rest, outAnswers := s.outAnswers.drop 2,
      outPending := [], outDelivered := s.outDelivered ++ (s.outPending ++ [b]), busy := none }) ∧
    (∀ as, s.outAnswers = .error :: as → exec .trapIn s = .next (faulted { linked s with
      regs := (linked s).regs.write .r0 (b.setWidth 16), input := rest, outAnswers := as } .io)) ∧
    (∀ as, s.outAnswers = .ok :: .error :: as → exec .trapIn s = .next (faulted { linked s with
      regs := (linked s).regs.write .r0 (b.setWidth 16), input := rest, outAnswers := as,
      outPending := s.outPending ++ [b] } .io))) ∧
  (∀ (s : State) (pre rest : List InEvent), s.input = pre ++ .error :: rest → (∀ e ∈ pre, e = .noByte) →
    exec .trapIn s = .next (faulted { linked s with input := rest } .io))

/-- HALT (R127): the halt state becomes HALTED; no register, no output, no memory cell, no input changes. -/
def Obligations.HaltSetsTheHaltState : Prop :=
  (∀ w : Word, w &&& 0xF0FF#16 = 0xF025#16 → decode w = .trapHalt) ∧
  (∀ s : State, exec .trapHalt s = .next { s with runState := .halted })

/-- IN-U16 (R128) on a stream with a newline, `es` being what comes before it: the digits among the bytes of `es`, read
as a decimal number, go into R0; no digit or a value over 65535 is Fatal(PARSE); an error before the newline is
Fatal(IO). What comes after the newline is not taken. Rests on the spec's decision D18 (notes/assumptions/10.md). That the
"no byte yet" answers in `es` are taken and skipped is the model's choice (notes/assumptions/12.md). -/
def Obligations.InU16ParsesTheDigitsBeforeTheNewline : Prop :=
  (∀ w : Word, w &&& 0xF0FF#16 = 0xF026#16 → decode w = .trapInU16) ∧
  (∀ (s : State) (es rest : List InEvent), s.input = es ++ .byte 0x0A#8 :: rest →
    (∀ e ∈ es, e ≠ .error ∧ e ≠ .byte 0x0A#8) →
    ((digitsIn (bytesIn es) = [] ∨ 65535 < Nat.ofDigits 10 (digitsIn (bytesIn es)).reverse) →
      exec .trapInU16 s = .next (faulted { linked s with input := rest } .parse)) ∧
    (digitsIn (bytesIn es) ≠ [] → Nat.ofDigits 10 (digitsIn (bytesIn es)).reverse ≤ 65535 →
      exec .trapInU16 s = .next { linked s with
        regs := (linked s).regs.write .r0 (BitVec.ofNat 16 (Nat.ofDigits 10 (digitsIn (bytesIn es)).reverse)),
        input := rest, busy := none })) ∧
  (∀ (s : State) (es rest : List InEvent), s.input = es ++ .error :: rest →
    (∀ e ∈ es, e ≠ .error ∧ e ≠ .byte 0x0A#8) →
    exec .trapInU16 s = .next (faulted { linked s with input := rest } .io))

/-- OUT-U16 (R129): the bytes written are the decimal digits of R0 read as unsigned, most significant first, one to five of
them, with no leading zero, then one flush; the first Error among the transactions is Fatal(IO), with the bytes before it
written. Rests on the spec's decision D19 (notes/assumptions/10.md). That a failed OutWrite writes nothing and a failed
OutFlush delivers nothing is the model's choice (notes/assumptions/14.md). -/
def Obligations.OutU16WritesTheDecimalDigits : Prop :=
  (∀ w : Word, w &&& 0xF0FF#16 = 0xF027#16 → decode w = .trapOutU16) ∧
  (∀ s : State, ∃ ds : List Nat,
    (∀ d ∈ ds, d ≤ 9) ∧ 1 ≤ ds.length ∧ ds.length ≤ 5 ∧ (ds.head? = some 0 → ds = [0]) ∧
    Nat.ofDigits 10 ds.reverse = (s.readReg .r0).toNat ∧
    (outOk (ds.length + 1) s → exec .trapOutU16 s = .next { linked s with
      outAnswers := s.outAnswers.drop (ds.length + 1), outPending := [],
      outDelivered := s.outDelivered ++ (s.outPending ++ ds.map fun d => BitVec.ofNat 8 (0x30 + d)), busy := none }) ∧
    (∀ (k : Nat) (rest : List PortAnswer), k ≤ ds.length →
      s.outAnswers = List.replicate k PortAnswer.ok ++ .error :: rest →
      exec .trapOutU16 s = .next (faulted { linked s with
        outAnswers := rest, outPending := s.outPending ++ (ds.take k).map fun d => BitVec.ofNat 8 (0x30 + d) } .io)))

/-- What OUT-U16 writes for a value, followed by a newline, IN-U16 reads back as that value (R128, R129). -/
def Obligations.InU16ReadsBackWhatOutU16Writes : Prop :=
  ∀ (v : Word) (s : State) (rest : List InEvent), s.input = (decimalBytes v ++ [0x0A#8]).map InEvent.byte ++ rest →
    exec .trapInU16 s = .next { linked s with
      regs := (linked s).regs.write .r0 v, input := rest, busy := none }

/-! ## Blocking reads -/

/-- A blocking read with no byte waits (10_state.md R36; 45_trap.md R131): the call holds the engine with R7 written and
nothing else changed, and stays so until the host answers. How a waiting call is held in the state is the model's
(notes/assumptions/13.md), and so is that the "no byte yet" answers are taken and that a read waits at the end of the list
(notes/assumptions/12.md). -/
def Obligations.BlockingReadsWaitForAByte : Prop :=
  (∀ s : State, (∀ e ∈ s.input, e = .noByte) →
    exec .trapGetc s = .next { linked s with input := [], busy := some .getc } ∧
    exec .trapIn s = .next { linked s with input := [], busy := some .inp } ∧
    exec .trapInU16 s = .next { linked s with input := [], busy := some (.inU16 []) }) ∧
  (∀ s : State, s.runState = .running → s.input = [] →
    (s.busy = some .getc ∨ s.busy = some .inp ∨ ∃ ds, s.busy = some (.inU16 ds)) → step s = .next s)

/-- Waiting is invisible: a call that had to wait and is then given the rest of the stream ends exactly as if the whole
stream had been there from the start (10_state.md R36; 45_trap.md R131). How a waiting call is held is the model's
(notes/assumptions/13.md), and so is the list the host appends its answers to (notes/assumptions/12.md). -/
def Obligations.WaitingForInputIsInvisible : Prop :=
  ∀ (i : Instr) (s t : State) (es : List InEvent), i ∈ [.trapGetc, .trapIn, .trapInU16] → s.runState = .running →
    exec i s = .next t → t.busy ≠ none → step (t.hostSupply es) = exec i (s.hostSupply es)

/-- The footprint of a call that goes on over several steps (45_trap.md R132): no register but R0, no memory cell but the
keyboard's, not PC, not COND, and it never becomes HALTED. The steps are the model's (notes/assumptions/13.md). -/
def Obligations.ResumedCallsKeepTheTrapFootprint : Prop :=
  ∀ s t : State, s.runState = .running → s.busy ≠ none → step s = .next t →
    (∀ r, r ≠ .r0 → t.readReg r = s.readReg r) ∧ t.pc = s.pc ∧ t.cond = s.cond ∧
    (∀ a, a ≠ kbsrAddr → a ≠ kbdrAddr → t.cell a = s.cell a) ∧ t.runState ≠ .halted

/-! ## Reset and image load -/

/-- The state after construction, before the first fetch (10_state.md R42). The numbers of PC and of R0 to R7, and RUNNING, are
the spec's decisions D10, D11 and D26 (notes/assumptions/6.md, 7.md). -/
def Obligations.ResetLeavesTheStatedValues : Prop :=
  (∀ r, State.reset.readReg r = 0x0000#16) ∧ State.reset.pc = 0x3000#16 ∧ State.reset.cond = 0x0002#16 ∧
  State.reset.runState = .running ∧ ∀ a, State.reset.cell a = 0x0000#16

/-- The loader (20_memory.md R53 to R55; 70_reset_and_hazards.md R153): an image whose origin is PC_START and whose words fit
is written into consecutive cells, a trailing odd byte is dropped, and nothing but memory changes; an image of fewer than
two bytes loads nothing; an image that would run past xFFFF or has another origin is refused. The refusals and the short image
are the spec's decisions D10 and D21 (notes/assumptions/6.md). -/
def Obligations.LoaderPlacesTheImage : Prop :=
  (∀ (s : State) (ws : List Word) (odd : List Byte), odd.length ≤ 1 → Config.pcStart.toNat + ws.length ≤ 65536 →
    ∃ t, loadImage ((Config.pcStart :: ws).flatMap (fun w => [w.extractLsb' 8 8, w.extractLsb' 0 8]) ++ odd) s = .ok t ∧
      (∀ (k : Nat) (h : k < ws.length), t.cell (Config.pcStart + BitVec.ofNat 16 k) = ws[k]) ∧
      (∀ a : Word, (∀ k : Nat, k < ws.length → a ≠ Config.pcStart + BitVec.ofNat 16 k) → t.cell a = s.cell a) ∧
      { t with mem := s.mem } = s) ∧
  (∀ (s : State) (bytes : List Byte), bytes.length < 2 → loadImage bytes s = .ok s) ∧
  (∀ (s : State) (origin : Word) (ws : List Word) (odd : List Byte), odd.length ≤ 1 →
    (65536 < origin.toNat + ws.length ∨ origin ≠ Config.pcStart) →
    ∃ e, loadImage ((origin :: ws).flatMap (fun w => [w.extractLsb' 8 8, w.extractLsb' 0 8]) ++ odd) s = .error e)
end

