-- ==== Sys2Proof/Laws/Decode.lean ====
section
/-! SUPPORT. The decoder, row by row of spec/opcode_table.json: a word with the row's match under its mask is that row's
instruction, with the row's fields; and the small lemmas of the two number tables. -/

namespace Sys2Proof

/-! ## The tables of numbers -/

@[simp] theorem Reg.ofBits_bits (r : Reg) : Reg.ofBits r.bits = r := by cases r <;> rfl

@[simp] theorem Reg.bits_ofBits (b : BitVec 3) : (Reg.ofBits b).bits = b := by revert b; decide

@[simp] theorem Opcode.ofCode_code (o : Opcode) : Opcode.ofCode o.code = o := by cases o <;> rfl

@[simp] theorem Opcode.code_ofCode (c : BitVec 4) : (Opcode.ofCode c).code = c := by revert c; decide

/-- "The eight values must be distinct" (30_encoding.md R74). -/
theorem trapVectors_distinct : (vectorList trapVectors).Nodup := by decide

/-! ## Fields under a mask -/

/-- A field the mask covers is the match's. -/
theorem field_of_mask {w mask m : Word} (lo len : Nat) (h : w &&& mask = m)
    (hm : mask.field lo len = BitVec.allOnes len) : w.field lo len = m.field lo len := by
  subst h
  have : (w &&& mask).field lo len = w.field lo len &&& mask.field lo len := by
    apply BitVec.eq_of_getLsbD_eq
    intro i hi
    simp [Word.field, hi]
  rw [this, hm, BitVec.and_allOnes]

/-- A bit the mask covers is the match's. -/
theorem bit_of_mask {w mask m : Word} (i : Nat) (h : w &&& mask = m) (hm : mask.getLsbD i = true) :
    w.getLsbD i = m.getLsbD i := by
  subst h
  simp only [BitVec.getLsbD_and, hm, Bool.and_true]

/-- The opcode of a word whose bits 15:12 the mask covers. -/
theorem opcode_of_mask {w mask m : Word} (h : w &&& mask = m) (hm : mask.field 12 4 = BitVec.allOnes 4) :
    Opcode.ofCode (w.field 12 4) = Opcode.ofCode (m.field 12 4) := by
  rw [field_of_mask 12 4 h hm]

/-! ## The rows -/

theorem decode_addReg {w : Word} (h : w &&& 0xF020#16 = 0x1000#16) :
    decode w = (.addReg (w.reg 9) (w.reg 6) (w.reg 0)) := by
  have ho : Opcode.ofCode (w.field 12 4) = .add := (opcode_of_mask h rfl).trans rfl
  have hb : w.getLsbD 5 = false := (bit_of_mask 5 h rfl).trans rfl
  unfold decode decodeWith
  rw [ho]
  simp only [hb]
  rfl

theorem decode_addImm {w : Word} (h : w &&& 0xF020#16 = 0x1020#16) :
    decode w = (.addImm (w.reg 9) (w.reg 6) (w.field 0 5)) := by
  have ho : Opcode.ofCode (w.field 12 4) = .add := (opcode_of_mask h rfl).trans rfl
  have hb : w.getLsbD 5 = true := (bit_of_mask 5 h rfl).trans rfl
  unfold decode decodeWith
  rw [ho]
  simp only [hb]
  rfl

theorem decode_andReg {w : Word} (h : w &&& 0xF020#16 = 0x5000#16) :
    decode w = (.andReg (w.reg 9) (w.reg 6) (w.reg 0)) := by
  have ho : Opcode.ofCode (w.field 12 4) = .and := (opcode_of_mask h rfl).trans rfl
  have hb : w.getLsbD 5 = false := (bit_of_mask 5 h rfl).trans rfl
  unfold decode decodeWith
  rw [ho]
  simp only [hb]
  rfl

theorem decode_andImm {w : Word} (h : w &&& 0xF020#16 = 0x5020#16) :
    decode w = (.andImm (w.reg 9) (w.reg 6) (w.field 0 5)) := by
  have ho : Opcode.ofCode (w.field 12 4) = .and := (opcode_of_mask h rfl).trans rfl
  have hb : w.getLsbD 5 = true := (bit_of_mask 5 h rfl).trans rfl
  unfold decode decodeWith
  rw [ho]
  simp only [hb]
  rfl

theorem decode_notReg {w : Word} (h : w &&& 0xF000#16 = 0x9000#16) :
    decode w = (.notReg (w.reg 9) (w.reg 6)) := by
  have ho : Opcode.ofCode (w.field 12 4) = .not := (opcode_of_mask h rfl).trans rfl
  unfold decode decodeWith
  rw [ho]

theorem decode_ld {w : Word} (h : w &&& 0xF000#16 = 0x2000#16) :
    decode w = (.ld (w.reg 9) (w.field 0 9)) := by
  have ho : Opcode.ofCode (w.field 12 4) = .ld := (opcode_of_mask h rfl).trans rfl
  unfold decode decodeWith
  rw [ho]

theorem decode_ldi {w : Word} (h : w &&& 0xF000#16 = 0xA000#16) :
    decode w = (.ldi (w.reg 9) (w.field 0 9)) := by
  have ho : Opcode.ofCode (w.field 12 4) = .ldi := (opcode_of_mask h rfl).trans rfl
  unfold decode decodeWith
  rw [ho]

theorem decode_ldr {w : Word} (h : w &&& 0xF000#16 = 0x6000#16) :
    decode w = (.ldr (w.reg 9) (w.reg 6) (w.field 0 6)) := by
  have ho : Opcode.ofCode (w.field 12 4) = .ldr := (opcode_of_mask h rfl).trans rfl
  unfold decode decodeWith
  rw [ho]

theorem decode_lea {w : Word} (h : w &&& 0xF000#16 = 0xE000#16) :
    decode w = (.lea (w.reg 9) (w.field 0 9)) := by
  have ho : Opcode.ofCode (w.field 12 4) = .lea := (opcode_of_mask h rfl).trans rfl
  unfold decode decodeWith
  rw [ho]

theorem decode_st {w : Word} (h : w &&& 0xF000#16 = 0x3000#16) :
    decode w = (.st (w.reg 9) (w.field 0 9)) := by
  have ho : Opcode.ofCode (w.field 12 4) = .st := (opcode_of_mask h rfl).trans rfl
  unfold decode decodeWith
  rw [ho]

theorem decode_sti {w : Word} (h : w &&& 0xF000#16 = 0xB000#16) :
    decode w = (.sti (w.reg 9) (w.field 0 9)) := by
  have ho : Opcode.ofCode (w.field 12 4) = .sti := (opcode_of_mask h rfl).trans rfl
  unfold decode decodeWith
  rw [ho]

theorem decode_str {w : Word} (h : w &&& 0xF000#16 = 0x7000#16) :
    decode w = (.str (w.reg 9) (w.reg 6) (w.field 0 6)) := by
  have ho : Opcode.ofCode (w.field 12 4) = .str := (opcode_of_mask h rfl).trans rfl
  unfold decode decodeWith
  rw [ho]

theorem decode_br {w : Word} (h : w &&& 0xF000#16 = 0x0000#16) :
    decode w = (.br (w.getLsbD 11) (w.getLsbD 10) (w.getLsbD 9) (w.field 0 9)) := by
  have ho : Opcode.ofCode (w.field 12 4) = .br := (opcode_of_mask h rfl).trans rfl
  unfold decode decodeWith
  rw [ho]

theorem decode_jmp {w : Word} (h : w &&& 0xF000#16 = 0xC000#16) :
    decode w = (.jmp (w.reg 6)) := by
  have ho : Opcode.ofCode (w.field 12 4) = .jmp := (opcode_of_mask h rfl).trans rfl
  unfold decode decodeWith
  rw [ho]

theorem decode_jsr {w : Word} (h : w &&& 0xF800#16 = 0x4800#16) :
    decode w = (.jsr (w.field 0 11)) := by
  have ho : Opcode.ofCode (w.field 12 4) = .jsr := (opcode_of_mask h rfl).trans rfl
  have hb : w.getLsbD 11 = true := (bit_of_mask 11 h rfl).trans rfl
  unfold decode decodeWith
  rw [ho]
  simp only [hb]
  rfl

theorem decode_jsrr {w : Word} (h : w &&& 0xF800#16 = 0x4000#16) :
    decode w = (.jsrr (w.reg 6)) := by
  have ho : Opcode.ofCode (w.field 12 4) = .jsr := (opcode_of_mask h rfl).trans rfl
  have hb : w.getLsbD 11 = false := (bit_of_mask 11 h rfl).trans rfl
  unfold decode decodeWith
  rw [ho]
  simp only [hb]
  rfl

theorem decode_rtiReserved {w : Word} (h : w &&& 0xF000#16 = 0x8000#16) :
    decode w = (.rtiReserved (w.field 0 12)) := by
  have ho : Opcode.ofCode (w.field 12 4) = .rti := (opcode_of_mask h rfl).trans rfl
  unfold decode decodeWith
  rw [ho]

theorem decode_unusedReserved {w : Word} (h : w &&& 0xF000#16 = 0xD000#16) :
    decode w = (.unusedReserved (w.field 0 12)) := by
  have ho : Opcode.ofCode (w.field 12 4) = .unused := (opcode_of_mask h rfl).trans rfl
  unfold decode decodeWith
  rw [ho]

theorem decode_trapGetc {w : Word} (h : w &&& 0xF0FF#16 = 0xF020#16) : decode w = .trapGetc := by
  have ho : Opcode.ofCode (w.field 12 4) = .trap := (opcode_of_mask h rfl).trans rfl
  have hv : w.field 0 8 = 0x20#8 := (field_of_mask 0 8 h rfl).trans rfl
  unfold decode decodeWith
  rw [ho, hv]
  rfl

theorem decode_trapOut {w : Word} (h : w &&& 0xF0FF#16 = 0xF021#16) : decode w = .trapOut := by
  have ho : Opcode.ofCode (w.field 12 4) = .trap := (opcode_of_mask h rfl).trans rfl
  have hv : w.field 0 8 = 0x21#8 := (field_of_mask 0 8 h rfl).trans rfl
  unfold decode decodeWith
  rw [ho, hv]
  rfl

theorem decode_trapPuts {w : Word} (h : w &&& 0xF0FF#16 = 0xF022#16) : decode w = .trapPuts := by
  have ho : Opcode.ofCode (w.field 12 4) = .trap := (opcode_of_mask h rfl).trans rfl
  have hv : w.field 0 8 = 0x22#8 := (field_of_mask 0 8 h rfl).trans rfl
  unfold decode decodeWith
  rw [ho, hv]
  rfl

theorem decode_trapIn {w : Word} (h : w &&& 0xF0FF#16 = 0xF023#16) : decode w = .trapIn := by
  have ho : Opcode.ofCode (w.field 12 4) = .trap := (opcode_of_mask h rfl).trans rfl
  have hv : w.field 0 8 = 0x23#8 := (field_of_mask 0 8 h rfl).trans rfl
  unfold decode decodeWith
  rw [ho, hv]
  rfl

theorem decode_trapPutsp {w : Word} (h : w &&& 0xF0FF#16 = 0xF024#16) : decode w = .trapPutsp := by
  have ho : Opcode.ofCode (w.field 12 4) = .trap := (opcode_of_mask h rfl).trans rfl
  have hv : w.field 0 8 = 0x24#8 := (field_of_mask 0 8 h rfl).trans rfl
  unfold decode decodeWith
  rw [ho, hv]
  rfl

theorem decode_trapHalt {w : Word} (h : w &&& 0xF0FF#16 = 0xF025#16) : decode w = .trapHalt := by
  have ho : Opcode.ofCode (w.field 12 4) = .trap := (opcode_of_mask h rfl).trans rfl
  have hv : w.field 0 8 = 0x25#8 := (field_of_mask 0 8 h rfl).trans rfl
  unfold decode decodeWith
  rw [ho, hv]
  rfl

theorem decode_trapInU16 {w : Word} (h : w &&& 0xF0FF#16 = 0xF026#16) : decode w = .trapInU16 := by
  have ho : Opcode.ofCode (w.field 12 4) = .trap := (opcode_of_mask h rfl).trans rfl
  have hv : w.field 0 8 = 0x26#8 := (field_of_mask 0 8 h rfl).trans rfl
  unfold decode decodeWith
  rw [ho, hv]
  rfl

theorem decode_trapOutU16 {w : Word} (h : w &&& 0xF0FF#16 = 0xF027#16) : decode w = .trapOutU16 := by
  have ho : Opcode.ofCode (w.field 12 4) = .trap := (opcode_of_mask h rfl).trans rfl
  have hv : w.field 0 8 = 0x27#8 := (field_of_mask 0 8 h rfl).trans rfl
  unfold decode decodeWith
  rw [ho, hv]
  rfl

theorem decode_trapUnsupported {w : Word} (h : w &&& 0xF000#16 = 0xF000#16)
    (hv : supportsVector trapVectors (w.field 0 8) = false) : decode w = .trapUnsupported (w.field 0 8) := by
  have ho : Opcode.ofCode (w.field 12 4) = .trap := (opcode_of_mask h rfl).trans rfl
  unfold decode decodeWith
  rw [ho]
  simp [supportsVector, vectorList] at hv
  simp [decodeTrap, hv]

/-- The decode error of a word, by R89: `decodeChecked` fails exactly on the three invalid rows. -/
theorem decodeChecked_ok_iff (w : Word) (i : Instr) : decodeChecked w = .ok i ↔ decode w = i ∧ i.valid = true := by
  unfold decodeChecked Instr.valid
  cases h : (decode w).decodeError with
  | none =>
    constructor
    · rintro ⟨⟩; exact ⟨rfl, by simp [h]⟩
    · rintro ⟨rfl, -⟩; rfl
  | some e =>
    constructor
    · intro hc; cases hc
    · rintro ⟨rfl, hv⟩; simp [h] at hv

end Sys2Proof
end

