-- ==== Sys2Proof/Laws/State.lean ====
section
/-! SUPPORT. One lemma per field per update of the state record, so that no later proof unfolds an update. -/

namespace Sys2Proof
namespace Machine
namespace State

section
variable (s : State) (v : RegFile)

@[simp] theorem setRegs_regs : (s.setRegs v).regs = v := rfl
@[simp] theorem setRegs_pc : (s.setRegs v).pc = s.pc := rfl
@[simp] theorem setRegs_cond : (s.setRegs v).cond = s.cond := rfl
@[simp] theorem setRegs_runState : (s.setRegs v).runState = s.runState := rfl
@[simp] theorem setRegs_mem : (s.setRegs v).mem = s.mem := rfl
@[simp] theorem setRegs_busy : (s.setRegs v).busy = s.busy := rfl
@[simp] theorem setRegs_input : (s.setRegs v).input = s.input := rfl
@[simp] theorem setRegs_outAnswers : (s.setRegs v).outAnswers = s.outAnswers := rfl
@[simp] theorem setRegs_outPending : (s.setRegs v).outPending = s.outPending := rfl
@[simp] theorem setRegs_outDelivered : (s.setRegs v).outDelivered = s.outDelivered := rfl

end

section
variable (s : State) (v : Word)

@[simp] theorem setPc_regs : (s.setPc v).regs = s.regs := rfl
@[simp] theorem setPc_pc : (s.setPc v).pc = v := rfl
@[simp] theorem setPc_cond : (s.setPc v).cond = s.cond := rfl
@[simp] theorem setPc_runState : (s.setPc v).runState = s.runState := rfl
@[simp] theorem setPc_mem : (s.setPc v).mem = s.mem := rfl
@[simp] theorem setPc_busy : (s.setPc v).busy = s.busy := rfl
@[simp] theorem setPc_input : (s.setPc v).input = s.input := rfl
@[simp] theorem setPc_outAnswers : (s.setPc v).outAnswers = s.outAnswers := rfl
@[simp] theorem setPc_outPending : (s.setPc v).outPending = s.outPending := rfl
@[simp] theorem setPc_outDelivered : (s.setPc v).outDelivered = s.outDelivered := rfl

end

section
variable (s : State) (v : Word)

@[simp] theorem setCond_regs : (s.setCond v).regs = s.regs := rfl
@[simp] theorem setCond_pc : (s.setCond v).pc = s.pc := rfl
@[simp] theorem setCond_cond : (s.setCond v).cond = v := rfl
@[simp] theorem setCond_runState : (s.setCond v).runState = s.runState := rfl
@[simp] theorem setCond_mem : (s.setCond v).mem = s.mem := rfl
@[simp] theorem setCond_busy : (s.setCond v).busy = s.busy := rfl
@[simp] theorem setCond_input : (s.setCond v).input = s.input := rfl
@[simp] theorem setCond_outAnswers : (s.setCond v).outAnswers = s.outAnswers := rfl
@[simp] theorem setCond_outPending : (s.setCond v).outPending = s.outPending := rfl
@[simp] theorem setCond_outDelivered : (s.setCond v).outDelivered = s.outDelivered := rfl

end

section
variable (s : State) (v : RunState)

@[simp] theorem setRunState_regs : (s.setRunState v).regs = s.regs := rfl
@[simp] theorem setRunState_pc : (s.setRunState v).pc = s.pc := rfl
@[simp] theorem setRunState_cond : (s.setRunState v).cond = s.cond := rfl
@[simp] theorem setRunState_runState : (s.setRunState v).runState = v := rfl
@[simp] theorem setRunState_mem : (s.setRunState v).mem = s.mem := rfl
@[simp] theorem setRunState_busy : (s.setRunState v).busy = s.busy := rfl
@[simp] theorem setRunState_input : (s.setRunState v).input = s.input := rfl
@[simp] theorem setRunState_outAnswers : (s.setRunState v).outAnswers = s.outAnswers := rfl
@[simp] theorem setRunState_outPending : (s.setRunState v).outPending = s.outPending := rfl
@[simp] theorem setRunState_outDelivered : (s.setRunState v).outDelivered = s.outDelivered := rfl

end

section
variable (s : State) (v : Memory)

@[simp] theorem setMem_regs : (s.setMem v).regs = s.regs := rfl
@[simp] theorem setMem_pc : (s.setMem v).pc = s.pc := rfl
@[simp] theorem setMem_cond : (s.setMem v).cond = s.cond := rfl
@[simp] theorem setMem_runState : (s.setMem v).runState = s.runState := rfl
@[simp] theorem setMem_mem : (s.setMem v).mem = v := rfl
@[simp] theorem setMem_busy : (s.setMem v).busy = s.busy := rfl
@[simp] theorem setMem_input : (s.setMem v).input = s.input := rfl
@[simp] theorem setMem_outAnswers : (s.setMem v).outAnswers = s.outAnswers := rfl
@[simp] theorem setMem_outPending : (s.setMem v).outPending = s.outPending := rfl
@[simp] theorem setMem_outDelivered : (s.setMem v).outDelivered = s.outDelivered := rfl

end

section
variable (s : State) (v : Option InProgress)

@[simp] theorem setBusy_regs : (s.setBusy v).regs = s.regs := rfl
@[simp] theorem setBusy_pc : (s.setBusy v).pc = s.pc := rfl
@[simp] theorem setBusy_cond : (s.setBusy v).cond = s.cond := rfl
@[simp] theorem setBusy_runState : (s.setBusy v).runState = s.runState := rfl
@[simp] theorem setBusy_mem : (s.setBusy v).mem = s.mem := rfl
@[simp] theorem setBusy_busy : (s.setBusy v).busy = v := rfl
@[simp] theorem setBusy_input : (s.setBusy v).input = s.input := rfl
@[simp] theorem setBusy_outAnswers : (s.setBusy v).outAnswers = s.outAnswers := rfl
@[simp] theorem setBusy_outPending : (s.setBusy v).outPending = s.outPending := rfl
@[simp] theorem setBusy_outDelivered : (s.setBusy v).outDelivered = s.outDelivered := rfl

end

section
variable (s : State) (v : List InEvent)

@[simp] theorem setInput_regs : (s.setInput v).regs = s.regs := rfl
@[simp] theorem setInput_pc : (s.setInput v).pc = s.pc := rfl
@[simp] theorem setInput_cond : (s.setInput v).cond = s.cond := rfl
@[simp] theorem setInput_runState : (s.setInput v).runState = s.runState := rfl
@[simp] theorem setInput_mem : (s.setInput v).mem = s.mem := rfl
@[simp] theorem setInput_busy : (s.setInput v).busy = s.busy := rfl
@[simp] theorem setInput_input : (s.setInput v).input = v := rfl
@[simp] theorem setInput_outAnswers : (s.setInput v).outAnswers = s.outAnswers := rfl
@[simp] theorem setInput_outPending : (s.setInput v).outPending = s.outPending := rfl
@[simp] theorem setInput_outDelivered : (s.setInput v).outDelivered = s.outDelivered := rfl

end

section
variable (s : State) (v : List PortAnswer)

@[simp] theorem setOutAnswers_regs : (s.setOutAnswers v).regs = s.regs := rfl
@[simp] theorem setOutAnswers_pc : (s.setOutAnswers v).pc = s.pc := rfl
@[simp] theorem setOutAnswers_cond : (s.setOutAnswers v).cond = s.cond := rfl
@[simp] theorem setOutAnswers_runState : (s.setOutAnswers v).runState = s.runState := rfl
@[simp] theorem setOutAnswers_mem : (s.setOutAnswers v).mem = s.mem := rfl
@[simp] theorem setOutAnswers_busy : (s.setOutAnswers v).busy = s.busy := rfl
@[simp] theorem setOutAnswers_input : (s.setOutAnswers v).input = s.input := rfl
@[simp] theorem setOutAnswers_outAnswers : (s.setOutAnswers v).outAnswers = v := rfl
@[simp] theorem setOutAnswers_outPending : (s.setOutAnswers v).outPending = s.outPending := rfl
@[simp] theorem setOutAnswers_outDelivered : (s.setOutAnswers v).outDelivered = s.outDelivered := rfl

end

section
variable (s : State) (v : List Byte)

@[simp] theorem setOutPending_regs : (s.setOutPending v).regs = s.regs := rfl
@[simp] theorem setOutPending_pc : (s.setOutPending v).pc = s.pc := rfl
@[simp] theorem setOutPending_cond : (s.setOutPending v).cond = s.cond := rfl
@[simp] theorem setOutPending_runState : (s.setOutPending v).runState = s.runState := rfl
@[simp] theorem setOutPending_mem : (s.setOutPending v).mem = s.mem := rfl
@[simp] theorem setOutPending_busy : (s.setOutPending v).busy = s.busy := rfl
@[simp] theorem setOutPending_input : (s.setOutPending v).input = s.input := rfl
@[simp] theorem setOutPending_outAnswers : (s.setOutPending v).outAnswers = s.outAnswers := rfl
@[simp] theorem setOutPending_outPending : (s.setOutPending v).outPending = v := rfl
@[simp] theorem setOutPending_outDelivered : (s.setOutPending v).outDelivered = s.outDelivered := rfl

end

section
variable (s : State) (v : List Byte)

@[simp] theorem setOutDelivered_regs : (s.setOutDelivered v).regs = s.regs := rfl
@[simp] theorem setOutDelivered_pc : (s.setOutDelivered v).pc = s.pc := rfl
@[simp] theorem setOutDelivered_cond : (s.setOutDelivered v).cond = s.cond := rfl
@[simp] theorem setOutDelivered_runState : (s.setOutDelivered v).runState = s.runState := rfl
@[simp] theorem setOutDelivered_mem : (s.setOutDelivered v).mem = s.mem := rfl
@[simp] theorem setOutDelivered_busy : (s.setOutDelivered v).busy = s.busy := rfl
@[simp] theorem setOutDelivered_input : (s.setOutDelivered v).input = s.input := rfl
@[simp] theorem setOutDelivered_outAnswers : (s.setOutDelivered v).outAnswers = s.outAnswers := rfl
@[simp] theorem setOutDelivered_outPending : (s.setOutDelivered v).outPending = s.outPending := rfl
@[simp] theorem setOutDelivered_outDelivered : (s.setOutDelivered v).outDelivered = v := rfl

end

/-- Two states with equal fields are equal. -/
@[ext] theorem ext_fields {s t : State} (h1 : s.regs = t.regs) (h2 : s.pc = t.pc) (h3 : s.cond = t.cond)
    (h4 : s.runState = t.runState) (h5 : s.mem = t.mem) (h6 : s.busy = t.busy) (h7 : s.input = t.input)
    (h8 : s.outAnswers = t.outAnswers) (h9 : s.outPending = t.outPending)
    (h10 : s.outDelivered = t.outDelivered) : s = t := by
  cases s; cases t; simp_all

end State
end Machine
end Sys2Proof
end

