-- ==== Sys2Proof/Laws/Memory.lean ====
section
/-! SUPPORT. The laws of memory and of the register file: a read after a write, a write leaves every other place alone, every
memory operation keeps the canonical form. -/

namespace Sys2Proof
namespace Machine

/-! ## Registers -/

@[simp] theorem RegFile.read_write (f : RegFile) (r q : Reg) (v : Word) :
    (f.write r v).read q = if q = r then v else f.read q := by
  cases r <;> cases q <;> rfl

@[simp] theorem State.writeReg_regs (s : State) (r : Reg) (v : Word) : (s.writeReg r v).regs = s.regs.write r v := rfl
@[simp] theorem State.writeReg_pc (s : State) (r : Reg) (v : Word) : (s.writeReg r v).pc = s.pc := rfl
@[simp] theorem State.writeReg_cond (s : State) (r : Reg) (v : Word) : (s.writeReg r v).cond = s.cond := rfl
@[simp] theorem State.writeReg_runState (s : State) (r : Reg) (v : Word) : (s.writeReg r v).runState = s.runState := rfl
@[simp] theorem State.writeReg_mem (s : State) (r : Reg) (v : Word) : (s.writeReg r v).mem = s.mem := rfl
@[simp] theorem State.writeReg_busy (s : State) (r : Reg) (v : Word) : (s.writeReg r v).busy = s.busy := rfl
@[simp] theorem State.writeReg_input (s : State) (r : Reg) (v : Word) : (s.writeReg r v).input = s.input := rfl
@[simp] theorem State.writeReg_outAnswers (s : State) (r : Reg) (v : Word) :
    (s.writeReg r v).outAnswers = s.outAnswers := rfl
@[simp] theorem State.writeReg_outPending (s : State) (r : Reg) (v : Word) :
    (s.writeReg r v).outPending = s.outPending := rfl
@[simp] theorem State.writeReg_outDelivered (s : State) (r : Reg) (v : Word) :
    (s.writeReg r v).outDelivered = s.outDelivered := rfl

@[simp] theorem State.readReg_writeReg (s : State) (r q : Reg) (v : Word) :
    (s.writeReg r v).readReg q = if q = r then v else s.readReg q :=
  RegFile.read_write s.regs r q v

theorem State.readReg_congr {s t : State} (h : t.regs = s.regs) (r : Reg) : t.readReg r = s.readReg r := by
  simp [State.readReg, h]

/-! ## Cells -/

/-- Erasing a cell makes it read as an unlisted one and leaves the others alone. -/
theorem Memory.get_erase (m : Memory) (a b : Nat) :
    (m.erase a).get b = if b = a then unlistedCell else m.get b := by
  induction m with
  | nil => simp [Memory.erase, Memory.get]
  | cons c rest ih =>
    unfold Memory.erase at ih ⊢
    by_cases hc : c.1 = a
    · rw [List.filter_cons_of_neg (by simpa using hc), ih]
      by_cases hb : b = a
      · simp [hb]
      · have : c.1 ≠ b := fun h => hb (h.symm.trans hc)
        simp [hb, Memory.get, this]
    · rw [List.filter_cons_of_pos (by simpa using hc)]
      simp only [Memory.get, ih]
      by_cases hcb : c.1 = b
      · have : b ≠ a := fun h => hc (hcb.trans h)
        simp [hcb, this]
      · simp [hcb]

/-- Inserting a pair at an address the list does not hold. -/
theorem Memory.get_insert (m : Memory) (a b : Nat) (v : Word) (hm : ∀ c ∈ m, c.1 ≠ a) :
    (m.insert a v).get b = if b = a then v else m.get b := by
  induction m with
  | nil => by_cases h : a = b <;> simp [Memory.insert, Memory.get, h, eq_comm]
  | cons c rest ih =>
    have hc : c.1 ≠ a := hm c (by simp)
    have ih := ih fun d hd => hm d (by simp [hd])
    by_cases hlt : c.1 < a
    · simp only [Memory.insert, hlt, if_true, Memory.get, ih]
      by_cases hcb : c.1 = b
      · have : b ≠ a := fun h => hc (hcb.trans h)
        simp [hcb, this]
      · simp [hcb]
    · by_cases hab : a = b
      · subst hab
        simp [Memory.insert, hlt, Memory.get]
      · simp [Memory.insert, hlt, Memory.get, hab, Ne.symm hab]

theorem Memory.erase_ne (m : Memory) (a : Nat) : ∀ c ∈ m.erase a, c.1 ≠ a := by
  intro c hc
  simpa [Memory.erase] using (List.mem_filter.mp hc).2

/-- A read after a write: the cell written gives the value written, every other cell what it gave before. -/
@[simp] theorem Memory.get_set (m : Memory) (a b : Nat) (v : Word) :
    (m.set a v).get b = if b = a then v else m.get b := by
  unfold Memory.set
  split
  · rename_i hv; rw [Memory.get_erase, hv]
  · rw [Memory.get_insert _ _ _ _ (m.erase_ne a), Memory.get_erase]
    by_cases h : b = a <;> simp [h]

/-! ## The canonical form -/

theorem Memory.wfFrom_mono {lo hi : Nat} {m : Memory} (h : Memory.wfFrom hi m = true) (hl : lo ≤ hi) :
    Memory.wfFrom lo m = true := by
  cases m with
  | nil => rfl
  | cons c rest =>
    simp only [Memory.wfFrom, Bool.and_eq_true, decide_eq_true_eq] at h ⊢
    exact ⟨⟨⟨Nat.le_trans hl h.1.1.1, h.1.1.2⟩, h.1.2⟩, h.2⟩

theorem Memory.wfFrom_erase {lo : Nat} {m : Memory} (a : Nat) (h : Memory.wfFrom lo m = true) :
    Memory.wfFrom lo (m.erase a) = true := by
  induction m generalizing lo with
  | nil => rfl
  | cons c rest ih =>
    obtain ⟨k, v⟩ := c
    simp only [Memory.wfFrom, Bool.and_eq_true, decide_eq_true_eq] at h
    obtain ⟨⟨⟨h1, h2⟩, h3⟩, h4⟩ := h
    have ih := ih h4
    unfold Memory.erase at ih ⊢
    by_cases hk : k = a
    · rw [List.filter_cons_of_neg (by simpa using hk)]
      exact Memory.wfFrom_mono ih (by omega)
    · rw [List.filter_cons_of_pos (by simpa using hk)]
      simp only [Memory.wfFrom, h1, h2, h3, ih, decide_true, Bool.and_self, not_false_eq_true, ne_eq]

theorem Memory.wfFrom_insert {lo a : Nat} {m : Memory} {v : Word} (h : Memory.wfFrom lo m = true)
    (hm : ∀ c ∈ m, c.1 ≠ a) (hlo : lo ≤ a) (ha : a < 65536) (hv : v ≠ unlistedCell) :
    Memory.wfFrom lo (m.insert a v) = true := by
  induction m generalizing lo with
  | nil => simp [Memory.insert, Memory.wfFrom, hlo, ha, hv]
  | cons c rest ih =>
    obtain ⟨k, w⟩ := c
    have hk : k ≠ a := hm (k, w) (by simp)
    simp only [Memory.wfFrom, Bool.and_eq_true, decide_eq_true_eq] at h
    obtain ⟨⟨⟨h1, h2⟩, h3⟩, h4⟩ := h
    unfold Memory.insert
    split
    · rename_i hlt
      have := ih h4 (fun d hd => hm d (by simp [hd])) (by simpa using hlt)
      simp [Memory.wfFrom, h1, h2, h3, this]
    · rename_i hlt
      have : a + 1 ≤ k := by simp at hlt; omega
      simp [Memory.wfFrom, hlo, ha, hv, this, h2, h3, h4]

/-- Writing a cell of the address space keeps the canonical form. -/
theorem Memory.wf_set {m : Memory} {a : Nat} (v : Word) (h : m.wf = true) (ha : a < 65536) :
    (m.set a v).wf = true := by
  unfold Memory.set
  split
  · exact Memory.wfFrom_erase a h
  · rename_i hv
    exact Memory.wfFrom_insert (Memory.wfFrom_erase a h) (m.erase_ne a) (Nat.zero_le a) ha hv

/-- The memory after reset is in canonical form. -/
theorem reset_mem_wf : State.reset.mem.wf = true := rfl

/-! ## Cells of the state -/

@[simp] theorem State.memWrite_regs (s : State) (a v : Word) : (s.memWrite a v).regs = s.regs := rfl
@[simp] theorem State.memWrite_pc (s : State) (a v : Word) : (s.memWrite a v).pc = s.pc := rfl
@[simp] theorem State.memWrite_cond (s : State) (a v : Word) : (s.memWrite a v).cond = s.cond := rfl
@[simp] theorem State.memWrite_runState (s : State) (a v : Word) : (s.memWrite a v).runState = s.runState := rfl
@[simp] theorem State.memWrite_mem (s : State) (a v : Word) : (s.memWrite a v).mem = s.mem.set a.toNat v := rfl
@[simp] theorem State.memWrite_busy (s : State) (a v : Word) : (s.memWrite a v).busy = s.busy := rfl
@[simp] theorem State.memWrite_input (s : State) (a v : Word) : (s.memWrite a v).input = s.input := rfl
@[simp] theorem State.memWrite_outAnswers (s : State) (a v : Word) : (s.memWrite a v).outAnswers = s.outAnswers := rfl
@[simp] theorem State.memWrite_outPending (s : State) (a v : Word) : (s.memWrite a v).outPending = s.outPending := rfl
@[simp] theorem State.memWrite_outDelivered (s : State) (a v : Word) :
    (s.memWrite a v).outDelivered = s.outDelivered := rfl

/-- A cell after a store. -/
@[simp] theorem State.cell_memWrite (s : State) (a b v : Word) :
    (s.memWrite a v).cell b = if b = a then v else s.cell b := by
  simp [State.cell, BitVec.toNat_inj]

/-! ## Cells and registers under the other updates -/

@[simp] theorem State.cell_setRegs (s : State) (v : RegFile) (a : Word) : (s.setRegs v).cell a = s.cell a := rfl
@[simp] theorem State.cell_setPc (s : State) (v : Word) (a : Word) : (s.setPc v).cell a = s.cell a := rfl
@[simp] theorem State.cell_setCond (s : State) (v : Word) (a : Word) : (s.setCond v).cell a = s.cell a := rfl
@[simp] theorem State.cell_setRunState (s : State) (v : RunState) (a : Word) : (s.setRunState v).cell a = s.cell a := rfl
@[simp] theorem State.cell_setBusy (s : State) (v : Option InProgress) (a : Word) : (s.setBusy v).cell a = s.cell a := rfl
@[simp] theorem State.cell_setInput (s : State) (v : List InEvent) (a : Word) : (s.setInput v).cell a = s.cell a := rfl
@[simp] theorem State.cell_setOutAnswers (s : State) (v : List PortAnswer) (a : Word) : (s.setOutAnswers v).cell a = s.cell a := rfl
@[simp] theorem State.cell_setOutPending (s : State) (v : List Byte) (a : Word) : (s.setOutPending v).cell a = s.cell a := rfl
@[simp] theorem State.cell_setOutDelivered (s : State) (v : List Byte) (a : Word) : (s.setOutDelivered v).cell a = s.cell a := rfl
@[simp] theorem State.readReg_setPc (s : State) (v : Word) (r : Reg) :
    (s.setPc v).readReg r = s.readReg r := rfl
@[simp] theorem State.readReg_setCond (s : State) (v : Word) (r : Reg) :
    (s.setCond v).readReg r = s.readReg r := rfl
@[simp] theorem State.readReg_setRunState (s : State) (v : RunState) (r : Reg) :
    (s.setRunState v).readReg r = s.readReg r := rfl
@[simp] theorem State.readReg_setBusy (s : State) (v : Option InProgress) (r : Reg) :
    (s.setBusy v).readReg r = s.readReg r := rfl
@[simp] theorem State.readReg_setInput (s : State) (v : List InEvent) (r : Reg) :
    (s.setInput v).readReg r = s.readReg r := rfl
@[simp] theorem State.readReg_setOutAnswers (s : State) (v : List PortAnswer) (r : Reg) :
    (s.setOutAnswers v).readReg r = s.readReg r := rfl
@[simp] theorem State.readReg_setOutPending (s : State) (v : List Byte) (r : Reg) :
    (s.setOutPending v).readReg r = s.readReg r := rfl
@[simp] theorem State.readReg_setOutDelivered (s : State) (v : List Byte) (r : Reg) :
    (s.setOutDelivered v).readReg r = s.readReg r := rfl
@[simp] theorem State.readReg_setMem (s : State) (v : Memory) (r : Reg) :
    (s.setMem v).readReg r = s.readReg r := rfl
@[simp] theorem State.cell_writeReg (s : State) (r : Reg) (v a : Word) : (s.writeReg r v).cell a = s.cell a := rfl
@[simp] theorem State.readReg_memWrite (s : State) (a v : Word) (r : Reg) :
    (s.memWrite a v).readReg r = s.readReg r := rfl

theorem State.cell_congr {s t : State} (h : t.mem = s.mem) (a : Word) : t.cell a = s.cell a := by
  simp [State.cell, h]

/-- A store keeps the canonical form. -/
theorem State.memWrite_wf {s : State} (a v : Word) (h : s.mem.wf = true) : (s.memWrite a v).mem.wf = true :=
  Memory.wf_set v h a.isLt

end Machine
end Sys2Proof
end

