-- ==== Sys2Proof/Laws/Ops.lean ====
section
/-! SUPPORT. One lemma for each shared operation that says once what it can do, cited instead of unfolding it. -/

namespace Sys2Proof
namespace Machine

/-! ## Results, links, fatal errors -/

/-- Every condition code is exactly one of the three (10_state.md R25). -/
theorem condOf_cases (r : Word) : condOf r = condN ∨ condOf r = condZ ∨ condOf r = condP := by
  unfold condOf
  split
  · simp
  · split <;> simp

/-- Writing a result reads back the value written, so COND is that of the value. -/
theorem State.writeResult_eq (s : State) (d : Reg) (v : Word) :
    s.writeResult d v = (s.writeReg d v).setCond (condOf v) := by
  simp [State.writeResult, State.setCC]

@[simp] theorem State.raiseFatal_regs (s : State) (r : FatalReason) : (s.raiseFatal r).regs = s.regs := rfl
@[simp] theorem State.raiseFatal_pc (s : State) (r : FatalReason) : (s.raiseFatal r).pc = s.pc := rfl
@[simp] theorem State.raiseFatal_cond (s : State) (r : FatalReason) : (s.raiseFatal r).cond = s.cond := rfl
@[simp] theorem State.raiseFatal_runState (s : State) (r : FatalReason) :
    (s.raiseFatal r).runState = .faulted r := rfl
@[simp] theorem State.raiseFatal_mem (s : State) (r : FatalReason) : (s.raiseFatal r).mem = s.mem := rfl
@[simp] theorem State.raiseFatal_busy (s : State) (r : FatalReason) : (s.raiseFatal r).busy = none := rfl
@[simp] theorem State.raiseFatal_input (s : State) (r : FatalReason) : (s.raiseFatal r).input = s.input := rfl
@[simp] theorem State.raiseFatal_outAnswers (s : State) (r : FatalReason) :
    (s.raiseFatal r).outAnswers = s.outAnswers := rfl
@[simp] theorem State.raiseFatal_outPending (s : State) (r : FatalReason) :
    (s.raiseFatal r).outPending = s.outPending := rfl
@[simp] theorem State.raiseFatal_outDelivered (s : State) (r : FatalReason) :
    (s.raiseFatal r).outDelivered = s.outDelivered := rfl

/-- A sequence of two operations ends in a next state either through both or through the first one's fatal error. -/
theorem Res.andThen_eq_next {α : Type} {x : Res α} {k : α → State → Outcome} {t : State} :
    x.andThen k = .next t ↔
      (∃ a s, x = .ok a s ∧ k a s = .next t) ∨ (∃ r s, x = .fatal r s ∧ t = s.raiseFatal r) := by
  cases x <;> simp [Res.andThen, eq_comm]

@[simp] theorem Res.andThen_ok {α : Type} (a : α) (s : State) (k : α → State → Outcome) :
    (Res.ok a s).andThen k = k a s := rfl

@[simp] theorem Res.andThen_fatal {α : Type} (r : FatalReason) (s : State) (k : α → State → Outcome) :
    (Res.fatal r s : Res α).andThen k = .next (s.raiseFatal r) := rfl

/-! ## The read path -/

/-- Only KBSR_ADDR has a side effect: any other read is a lookup (20_memory.md R48). -/
theorem memRead_plain {a : Word} (h : a ≠ kbsrAddr) (s : State) : memRead a s = .ok (s.cell a) s := by
  simp [memRead, h]

theorem kbdrAddr_ne_kbsrAddr : kbdrAddr ≠ kbsrAddr := by decide

/-- What a read of KBSR_ADDR does on each answer of the poll (20_memory.md R49). -/
theorem memRead_kbsr_byte {s : State} {b : Byte} {rest : List InEvent} (h : s.input = .byte b :: rest) :
    memRead kbsrAddr s =
      .ok kbsrReady (((s.setInput rest).memWrite kbsrAddr kbsrReady).memWrite kbdrAddr (zext8 b)) := by
  simp [memRead, pollKeyboard, inPoll, h, zext8, kbdrAddr_ne_kbsrAddr.symm]

theorem memRead_kbsr_noByte {s : State} {rest : List InEvent} (h : s.input = .noByte :: rest) :
    memRead kbsrAddr s = .ok 0x0000#16 ((s.setInput rest).memWrite kbsrAddr 0x0000#16) := by
  simp [memRead, pollKeyboard, inPoll, h]

theorem memRead_kbsr_empty {s : State} (h : s.input = []) :
    memRead kbsrAddr s = .ok 0x0000#16 (s.memWrite kbsrAddr 0x0000#16) := by
  simp [memRead, pollKeyboard, inPoll, h]

theorem memRead_kbsr_error {s : State} {rest : List InEvent} (h : s.input = .error :: rest) :
    memRead kbsrAddr s = .fatal .io (s.setInput rest) := by
  simp [memRead, pollKeyboard, inPoll, h]

/-- What a read of memory, and with it a poll, leaves alone: everything but the input stream and the two keyboard cells. -/
structure ReadFrame (s t : State) : Prop where
  regs : t.regs = s.regs
  pc : t.pc = s.pc
  cond : t.cond = s.cond
  runState : t.runState = s.runState
  busy : t.busy = s.busy
  outAnswers : t.outAnswers = s.outAnswers
  outPending : t.outPending = s.outPending
  outDelivered : t.outDelivered = s.outDelivered
  cells : ∀ a, a ≠ kbsrAddr → a ≠ kbdrAddr → t.cell a = s.cell a
  wf : s.mem.wf = true → t.mem.wf = true

theorem ReadFrame.refl (s : State) : ReadFrame s s :=
  ⟨rfl, rfl, rfl, rfl, rfl, rfl, rfl, rfl, fun _ _ _ => rfl, id⟩

theorem ReadFrame.trans {s t u : State} (h : ReadFrame s t) (k : ReadFrame t u) : ReadFrame s u :=
  ⟨k.regs.trans h.regs, k.pc.trans h.pc, k.cond.trans h.cond, k.runState.trans h.runState, k.busy.trans h.busy,
    k.outAnswers.trans h.outAnswers, k.outPending.trans h.outPending, k.outDelivered.trans h.outDelivered,
    fun a h1 h2 => (k.cells a h1 h2).trans (h.cells a h1 h2), fun w => k.wf (h.wf w)⟩

/-- A poll that succeeds takes at most one answer and writes KBSR, and KBDR on a byte. -/
theorem pollKeyboard_ok {s t : State} {u : Unit} (h : pollKeyboard s = .ok u t) : ReadFrame s t := by
  unfold pollKeyboard inPoll at h
  rcases hi : s.input with _ | ⟨e, rest⟩
  · simp only [hi, Res.ok.injEq] at h
    obtain ⟨-, rfl⟩ := h
    exact ⟨rfl, rfl, rfl, rfl, rfl, rfl, rfl, rfl, fun a h1 _ => by simp [h1], fun w => State.memWrite_wf _ _ w⟩
  · cases e with
    | byte b =>
      simp only [hi, Res.ok.injEq] at h
      obtain ⟨-, rfl⟩ := h
      exact ⟨rfl, rfl, rfl, rfl, rfl, rfl, rfl, rfl, fun a h1 h2 => by simp [h1, h2],
        fun w => State.memWrite_wf _ _ (State.memWrite_wf _ _ w)⟩
    | noByte =>
      simp only [hi, Res.ok.injEq] at h
      obtain ⟨-, rfl⟩ := h
      exact ⟨rfl, rfl, rfl, rfl, rfl, rfl, rfl, rfl, fun a h1 _ => by simp [h1],
        fun w => State.memWrite_wf _ _ w⟩
    | error => simp [hi] at h

/-- A poll fails only on an error of the stream, with Fatal(IO), and writes nothing. -/
theorem pollKeyboard_fatal {s t : State} {r : FatalReason} (h : pollKeyboard s = .fatal r t) :
    ∃ rest, s.input = .error :: rest ∧ r = .io ∧ t = s.setInput rest := by
  unfold pollKeyboard inPoll at h
  rcases hi : s.input with _ | ⟨e, rest⟩
  · simp [hi] at h
  · cases e <;> simp [hi] at h
    exact ⟨rest, rfl, h.1.symm, h.2.symm⟩

/-- Everything a successful read of memory can do. -/
theorem memRead_ok {a v : Word} {s t : State} (h : memRead a s = .ok v t) :
    ReadFrame s t ∧ v = t.cell a ∧ (a ≠ kbsrAddr → t = s) := by
  unfold memRead at h
  split at h
  · rename_i ha
    split at h
    · rename_i u s1 hp
      simp only [Res.ok.injEq] at h
      obtain ⟨rfl, rfl⟩ := h
      exact ⟨pollKeyboard_ok hp, rfl, fun hne => absurd ha hne⟩
    · simp at h
  · simp only [Res.ok.injEq] at h
    obtain ⟨rfl, rfl⟩ := h
    exact ⟨ReadFrame.refl s, rfl, fun _ => rfl⟩

/-- A read of memory fails only at KBSR_ADDR, on an error of the poll, with Fatal(IO). -/
theorem memRead_fatal {a : Word} {s t : State} {r : FatalReason} (h : memRead a s = .fatal r t) :
    a = kbsrAddr ∧ r = .io ∧ ∃ rest, s.input = .error :: rest ∧ t = s.setInput rest := by
  unfold memRead at h
  split at h
  · rename_i ha
    split at h
    · simp at h
    · rename_i r1 s1 hp
      simp only [Res.fatal.injEq] at h
      obtain ⟨rfl, rfl⟩ := h
      obtain ⟨rest, h1, h2, h3⟩ := pollKeyboard_fatal hp
      exact ⟨ha, h2, rest, h1, h3⟩
  · simp at h

/-- A fetch away from KBSR_ADDR reads the cell at pc and advances pc, and changes nothing else. -/
theorem fetch_plain {s : State} (h : s.pc ≠ kbsrAddr) : fetch s = .ok (s.cell s.pc) (s.setPc (s.pc + 1#16)) := by
  simp [fetch, memRead_plain h]

/-- Everything a successful fetch does: the read, then the increment. -/
theorem fetch_ok {s t : State} {w : Word} (h : fetch s = .ok w t) :
    ∃ s1, memRead s.pc s = .ok w s1 ∧ t = s1.setPc (s.pc + 1#16) := by
  unfold fetch at h
  split at h
  · rename_i v s1 hm
    simp only [Res.ok.injEq] at h
    obtain ⟨rfl, rfl⟩ := h
    exact ⟨s1, hm, by rw [(memRead_ok hm).1.pc]⟩
  · simp at h

/-- A fetch fails only at KBSR_ADDR, on an error of the poll, with Fatal(IO) and pc where it was. -/
theorem fetch_fatal {s t : State} {r : FatalReason} (h : fetch s = .fatal r t) :
    s.pc = kbsrAddr ∧ r = .io ∧ ∃ rest, s.input = .error :: rest ∧ t = s.setInput rest := by
  unfold fetch at h
  split at h
  · simp at h
  · rename_i r1 s1 hm
    simp only [Res.fatal.injEq] at h
    obtain ⟨rfl, rfl⟩ := h
    obtain ⟨hp, hr, rest, hi, rfl⟩ := memRead_fatal hm
    exact ⟨hp, hr, rest, hi, rfl⟩

/-! ## The output port -/

/-- What an output transaction leaves alone: everything but the output port's own three fields. -/
structure OutFrame (s t : State) : Prop where
  regs : t.regs = s.regs
  pc : t.pc = s.pc
  cond : t.cond = s.cond
  runState : t.runState = s.runState
  mem : t.mem = s.mem
  busy : t.busy = s.busy
  input : t.input = s.input

theorem OutFrame.refl (s : State) : OutFrame s s := ⟨rfl, rfl, rfl, rfl, rfl, rfl, rfl⟩

theorem OutFrame.trans {s t u : State} (h : OutFrame s t) (k : OutFrame t u) : OutFrame s u :=
  ⟨k.regs.trans h.regs, k.pc.trans h.pc, k.cond.trans h.cond, k.runState.trans h.runState, k.mem.trans h.mem,
    k.busy.trans h.busy, k.input.trans h.input⟩

/-- Everything a successful OutWrite does. -/
theorem outWrite_ok {b : Byte} {s t : State} {u : Unit} (h : outWrite b s = .ok u t) :
    OutFrame s t ∧ t.outPending = s.outPending ++ [b] ∧ t.outDelivered = s.outDelivered := by
  unfold outWrite nextOutAnswer at h
  rcases ha : s.outAnswers with _ | ⟨a, rest⟩
  · simp only [ha, Res.ok.injEq] at h
    obtain ⟨-, rfl⟩ := h
    exact ⟨⟨rfl, rfl, rfl, rfl, rfl, rfl, rfl⟩, rfl, rfl⟩
  · cases a with
    | ok =>
      simp only [ha, Res.ok.injEq] at h
      obtain ⟨-, rfl⟩ := h
      exact ⟨⟨rfl, rfl, rfl, rfl, rfl, rfl, rfl⟩, rfl, rfl⟩
    | error => simp [ha] at h

/-- An OutWrite fails only on the host's Error, with Fatal(IO), and writes nothing. -/
theorem outWrite_fatal {b : Byte} {s t : State} {r : FatalReason} (h : outWrite b s = .fatal r t) :
    ∃ rest, s.outAnswers = .error :: rest ∧ r = .io ∧ t = s.setOutAnswers rest := by
  unfold outWrite nextOutAnswer at h
  rcases ha : s.outAnswers with _ | ⟨a, rest⟩
  · simp [ha] at h
  · cases a <;> simp [ha] at h
    exact ⟨rest, rfl, h.1.symm, h.2.symm⟩

/-- Everything a successful OutFlush does. -/
theorem outFlush_ok {s t : State} {u : Unit} (h : outFlush s = .ok u t) :
    OutFrame s t ∧ t.outPending = [] ∧ t.outDelivered = s.outDelivered ++ s.outPending := by
  unfold outFlush nextOutAnswer at h
  rcases ha : s.outAnswers with _ | ⟨a, rest⟩
  · simp only [ha, Res.ok.injEq] at h
    obtain ⟨-, rfl⟩ := h
    exact ⟨⟨rfl, rfl, rfl, rfl, rfl, rfl, rfl⟩, rfl, rfl⟩
  · cases a with
    | ok =>
      simp only [ha, Res.ok.injEq] at h
      obtain ⟨-, rfl⟩ := h
      exact ⟨⟨rfl, rfl, rfl, rfl, rfl, rfl, rfl⟩, rfl, rfl⟩
    | error => simp [ha] at h

/-- An OutFlush fails only on the host's Error, with Fatal(IO), and delivers nothing. -/
theorem outFlush_fatal {s t : State} {r : FatalReason} (h : outFlush s = .fatal r t) :
    ∃ rest, s.outAnswers = .error :: rest ∧ r = .io ∧ t = s.setOutAnswers rest := by
  unfold outFlush nextOutAnswer at h
  rcases ha : s.outAnswers with _ | ⟨a, rest⟩
  · simp [ha] at h
  · cases a <;> simp [ha] at h
    exact ⟨rest, rfl, h.1.symm, h.2.symm⟩

/-- Everything a successful sequence of writes does. -/
theorem outWriteAll_ok {bs : List Byte} {s t : State} {u : Unit} (h : outWriteAll bs s = .ok u t) :
    OutFrame s t ∧ t.outPending = s.outPending ++ bs ∧ t.outDelivered = s.outDelivered := by
  induction bs generalizing s with
  | nil =>
    simp only [outWriteAll, Res.ok.injEq] at h
    obtain ⟨-, rfl⟩ := h
    exact ⟨OutFrame.refl _, by simp, rfl⟩
  | cons b rest ih =>
    simp only [outWriteAll] at h
    split at h
    · rename_i s1 hw
      obtain ⟨f, hp, hd⟩ := outWrite_ok hw
      obtain ⟨f2, hp2, hd2⟩ := ih h
      exact ⟨f.trans f2, by simp [hp2, hp], hd2.trans hd⟩
    · simp at h

/-- A sequence of writes that fails has changed the output port alone, and its reason is IO. -/
theorem outWriteAll_fatal {bs : List Byte} {s t : State} {r : FatalReason} (h : outWriteAll bs s = .fatal r t) :
    OutFrame s t ∧ t.outDelivered = s.outDelivered ∧ r = .io := by
  induction bs generalizing s with
  | nil => simp [outWriteAll] at h
  | cons b rest ih =>
    simp only [outWriteAll] at h
    split at h
    · rename_i s1 hw
      obtain ⟨f, -, hd⟩ := outWrite_ok hw
      obtain ⟨f2, hd2, hr⟩ := ih h
      exact ⟨f.trans f2, hd2.trans hd, hr⟩
    · rename_i r1 s1 hw
      simp only [Res.fatal.injEq] at h
      obtain ⟨rfl, rfl⟩ := h
      obtain ⟨rest, -, hr, rfl⟩ := outWrite_fatal hw
      exact ⟨⟨rfl, rfl, rfl, rfl, rfl, rfl, rfl⟩, rfl, hr⟩

/-- A host that answers Ok to everything accepts every byte. -/
theorem outWriteAll_accepting (bs : List Byte) {s : State} (h : s.outAnswers = []) :
    outWriteAll bs s = .ok () (s.setOutPending (s.outPending ++ bs)) := by
  induction bs generalizing s with
  | nil => simp [outWriteAll, State.setOutPending]
  | cons b rest ih =>
    have hw : outWrite b s = .ok () (s.setOutPending (s.outPending ++ [b])) := by
      simp [outWrite, nextOutAnswer, h]
    simp only [outWriteAll, hw]
    rw [ih (by simpa using h)]
    simp [State.setOutPending]

/-- With such a host the flush at the end of a call delivers what was pending, and the call is over. -/
theorem flushAndFinish_accepting {s : State} (h : s.outAnswers = []) :
    flushAndFinish s =
      .next (((s.setOutDelivered (s.outDelivered ++ s.outPending)).setOutPending []).setBusy none) := by
  simp [flushAndFinish, outFlush, nextOutAnswer, h, State.trapDone]

/-- How the end of a call that writes output can go: all delivered, or Fatal(IO) with nothing delivered. -/
theorem flushAndFinish_next {s t : State} (h : flushAndFinish s = .next t) :
    (t.regs = s.regs ∧ t.pc = s.pc ∧ t.cond = s.cond ∧ t.mem = s.mem ∧ t.input = s.input ∧ t.busy = none) ∧
      ((t.runState = s.runState ∧ t.outPending = [] ∧ t.outDelivered = s.outDelivered ++ s.outPending) ∨
        (t.runState = .faulted .io ∧ t.outPending = s.outPending ∧ t.outDelivered = s.outDelivered)) := by
  rcases Res.andThen_eq_next.mp h with ⟨u, s1, h1, h2⟩ | ⟨r, s1, h1, rfl⟩
  · obtain ⟨f, hp, hd⟩ := outFlush_ok h1
    simp only [Host.Outcome.next.injEq] at h2
    subst h2
    exact ⟨⟨f.regs, f.pc, f.cond, f.mem, f.input, rfl⟩, .inl ⟨f.runState, hp, hd⟩⟩
  · obtain ⟨rest, -, rfl, rfl⟩ := outFlush_fatal h1
    exact ⟨⟨rfl, rfl, rfl, rfl, rfl, rfl⟩, .inr ⟨rfl, rfl, rfl⟩⟩

/-! ## The input port -/

/-- Everything a blocking read can do: it changes the input stream alone. -/
theorem inReadFrom_cases (es : List InEvent) (s : State) :
    (∃ b pre rest, inReadFrom es s = .byte b (s.setInput rest) ∧ es = pre ++ .byte b :: rest ∧
        ∀ e ∈ pre, e = .noByte) ∨
      (∃ pre rest, inReadFrom es s = .error (s.setInput rest) ∧ es = pre ++ .error :: rest ∧ ∀ e ∈ pre, e = .noByte) ∨
      (inReadFrom es s = .waits (s.setInput []) ∧ ∀ e ∈ es, e = .noByte) := by
  induction es with
  | nil => exact .inr (.inr ⟨rfl, by simp⟩)
  | cons e rest ih =>
    cases e with
    | byte b => exact .inl ⟨b, [], rest, rfl, rfl, by simp⟩
    | error => exact .inr (.inl ⟨[], rest, rfl, rfl, by simp⟩)
    | noByte =>
      rcases ih with ⟨b, pre, r, h1, h2, h3⟩ | ⟨pre, r, h1, h2, h3⟩ | ⟨h1, h2⟩
      · exact .inl ⟨b, .noByte :: pre, r, h1, by simp [h2], by simpa using h3⟩
      · exact .inr (.inl ⟨.noByte :: pre, r, h1, by simp [h2], by simpa using h3⟩)
      · exact .inr (.inr ⟨h1, by simpa using h2⟩)

/-- The three ways a call that reads a byte goes on. -/
theorem onByte_cases (w : InProgress) (k : Byte → State → Outcome) (s : State) :
    (∃ b rest, onByte w k s = k b (s.setInput rest)) ∨
      (∃ rest, onByte w k s = .next ((s.setInput rest).raiseFatal .io)) ∨
      onByte w k s = .next ((s.setInput []).setBusy (some w)) := by
  unfold onByte inRead
  rcases inReadFrom_cases s.input s with ⟨b, pre, rest, h, -⟩ | ⟨pre, rest, h, -⟩ | ⟨h, -⟩
  · exact .inl ⟨b, rest, by simp [h]⟩
  · exact .inr (.inl ⟨rest, by simp [h]⟩)
  · exact .inr (.inr (by simp [h]))

/-- The digit loop is the loop of InRead that 45_trap.md R128 writes. -/
theorem digitLoop_eq_inRead (ds : List Nat) (s : State) :
    continueInU16 ds s =
      match inRead s with
      | .byte b s1 =>
        if b = newlineByte then parseInto ds s1
        else continueInU16 (if isDigit b then ds ++ [digitValue b] else ds) s1
      | .error s1 => .next (s1.raiseFatal .io)
      | .waits s1 => .next (s1.setBusy (some (.inU16 ds))) := by
  unfold continueInU16 inRead
  generalize s.input = es
  induction es with
  | nil => rfl
  | cons e rest ih =>
    cases e with
    | noByte => exact ih
    | error => rfl
    | byte b =>
      by_cases hb : b = newlineByte
      · simp [digitLoop, inReadFrom, hb]
      · by_cases hd : isDigit b = true <;> simp [digitLoop, inReadFrom, hb, hd] <;> rfl

/-! ## The string loop -/

/-- What the string loop leaves alone, however it ends. -/
structure StringFrame (s t : State) : Prop where
  regs : t.regs = s.regs
  pc : t.pc = s.pc
  cond : t.cond = s.cond
  runState : t.runState = s.runState
  busy : t.busy = s.busy
  outDelivered : t.outDelivered = s.outDelivered
  cells : ∀ a, a ≠ kbsrAddr → a ≠ kbdrAddr → t.cell a = s.cell a
  wf : s.mem.wf = true → t.mem.wf = true

theorem StringFrame.refl (s : State) : StringFrame s s :=
  ⟨rfl, rfl, rfl, rfl, rfl, rfl, fun _ _ _ => rfl, id⟩

theorem StringFrame.trans {s t u : State} (h : StringFrame s t) (k : StringFrame t u) : StringFrame s u :=
  ⟨k.regs.trans h.regs, k.pc.trans h.pc, k.cond.trans h.cond, k.runState.trans h.runState, k.busy.trans h.busy,
    k.outDelivered.trans h.outDelivered, fun a h1 h2 => (k.cells a h1 h2).trans (h.cells a h1 h2),
    fun w => k.wf (h.wf w)⟩

theorem ReadFrame.string {s t : State} (h : ReadFrame s t) : StringFrame s t :=
  ⟨h.regs, h.pc, h.cond, h.runState, h.busy, h.outDelivered, h.cells, h.wf⟩

theorem OutFrame.string {s t : State} (h : OutFrame s t) (hd : t.outDelivered = s.outDelivered) : StringFrame s t :=
  ⟨h.regs, h.pc, h.cond, h.runState, h.busy, hd, fun a _ _ => State.cell_congr h.mem a, fun w => by rw [h.mem]; exact w⟩

/-- The state the string loop ends in. -/
def StringResult.state : StringResult → State
  | .done s | .fatal _ s | .more _ s => s

/-- However it ends, the string loop has changed only the ports and the two keyboard cells; a fatal end is IO. -/
theorem stringLoop_frame (bytesOf : Word → List Byte) (fuel : Nat) (a : Word) (s : State) :
    StringFrame s (stringLoop bytesOf fuel a s).state ∧
      ∀ r t, stringLoop bytesOf fuel a s = .fatal r t → r = .io := by
  induction fuel generalizing a s with
  | zero => exact ⟨StringFrame.refl s, fun r t h => by simp [stringLoop] at h⟩
  | succ f ih =>
    unfold stringLoop
    split
    · rename_i r s1 hm
      obtain ⟨-, rfl, rest, -, rfl⟩ := memRead_fatal hm
      exact ⟨⟨rfl, rfl, rfl, rfl, rfl, rfl, fun _ _ _ => rfl, id⟩, by simp⟩
    · rename_i c s1 hm
      have f1 := (memRead_ok hm).1.string
      split
      · exact ⟨f1, by simp⟩
      · split
        · rename_i r s2 hw
          obtain ⟨fo, hd, rfl⟩ := outWriteAll_fatal hw
          exact ⟨f1.trans (fo.string hd), by simp⟩
        · rename_i s2 hw
          obtain ⟨fo, -, hd⟩ := outWriteAll_ok hw
          have := ih (a + 1#16) s2
          exact ⟨(f1.trans (fo.string hd)).trans this.1, this.2⟩

/-- A loop over `m + n` cells is one over `m` cells, and, if it has not ended, one over `n` cells from where that stands. -/
theorem stringLoop_add (bytesOf : Word → List Byte) (m n : Nat) (a : Word) (s : State) :
    stringLoop bytesOf (m + n) a s =
      match stringLoop bytesOf m a s with
      | .done t => .done t
      | .fatal r t => .fatal r t
      | .more b t => stringLoop bytesOf n b t := by
  induction m generalizing a s with
  | zero => simp [stringLoop]
  | succ m ih =>
    rw [Nat.succ_add]
    simp only [stringLoop]
    cases memRead a s with
    | fatal r s1 => rfl
    | ok c s1 =>
      by_cases hc : c = 0x0000#16
      · simp [hc]
      · simp only [hc, if_false]
        cases outWriteAll (bytesOf c) s1 with
        | fatal r s2 => rfl
        | ok u s2 => exact ih _ _

/-! ## The step -/

/-- A running machine with no trap in progress, away from KBSR_ADDR, executes the word at pc with pc advanced. -/
theorem step_plain {s : State} (hr : s.runState = .running) (hb : s.busy = none) (hp : s.pc ≠ kbsrAddr) :
    step s = exec (decode (s.cell s.pc)) (s.setPc (s.pc + 1#16)) := by
  simp [step, hr, hb, fetch_plain hp]

end Machine
end Sys2Proof
end

