-- ==== Sys2Proof/Laws/PerInstr.lean ====
section
/-! SUPPORT. A family of statements made per instruction: an encoding carries its own opcode in bits 15:12
(30_encoding.md R68, R72), whatever its operands. -/

namespace Sys2Proof
namespace Laws
namespace EncodesOwnOpcode

/-- The opcode of each instruction (R72). -/
def opcodeOf : Instr → Opcode
  | .addReg .. | .addImm .. => .add
  | .andReg .. | .andImm .. => .and
  | .notReg .. => .not
  | .ld .. => .ld
  | .ldi .. => .ldi
  | .ldr .. => .ldr
  | .lea .. => .lea
  | .st .. => .st
  | .sti .. => .sti
  | .str .. => .str
  | .br .. => .br
  | .jmp .. => .jmp
  | .jsr .. | .jsrr .. => .jsr
  | .trapGetc | .trapOut | .trapPuts | .trapIn | .trapPutsp | .trapHalt | .trapInU16 | .trapOutU16
  | .trapUnsupported _ => .trap
  | .rtiReserved _ => .rti
  | .unusedReserved _ => .unused

/-- The encoding of `i` has `i`'s opcode. -/
def Statement (i : Instr) : Prop := Opcode.ofCode ((encode i).field 12 4) = opcodeOf i

/-- A field that lies above the low part of a concatenation is a field of its high part. -/
theorem field_of_append {n m : Nat} (hi : BitVec n) (lo : BitVec m) (start len : Nat) (h : m ≤ start) :
    BitVec.extractLsb' start len (hi ++ lo) = BitVec.extractLsb' (start - m) len hi :=
  BitVec.extractLsb'_append_eq_of_le h

theorem addReg (d a b : Reg) : Statement (.addReg d a b) := by
  unfold Statement opcodeOf encode Word.field
  rw [field_of_append _ _ _ _ (by decide), field_of_append _ _ _ _ (by decide), field_of_append _ _ _ _ (by decide), field_of_append _ _ _ _ (by decide), field_of_append _ _ _ _ (by decide)]
  exact (congrArg Opcode.ofCode (BitVec.extractLsb'_eq_self)).trans (Opcode.ofCode_code _)

theorem addImm (d a : Reg) (i : BitVec 5) : Statement (.addImm d a i) := by
  unfold Statement opcodeOf encode Word.field
  rw [field_of_append _ _ _ _ (by decide), field_of_append _ _ _ _ (by decide), field_of_append _ _ _ _ (by decide), field_of_append _ _ _ _ (by decide)]
  exact (congrArg Opcode.ofCode (BitVec.extractLsb'_eq_self)).trans (Opcode.ofCode_code _)

theorem andReg (d a b : Reg) : Statement (.andReg d a b) := by
  unfold Statement opcodeOf encode Word.field
  rw [field_of_append _ _ _ _ (by decide), field_of_append _ _ _ _ (by decide), field_of_append _ _ _ _ (by decide), field_of_append _ _ _ _ (by decide), field_of_append _ _ _ _ (by decide)]
  exact (congrArg Opcode.ofCode (BitVec.extractLsb'_eq_self)).trans (Opcode.ofCode_code _)

theorem andImm (d a : Reg) (i : BitVec 5) : Statement (.andImm d a i) := by
  unfold Statement opcodeOf encode Word.field
  rw [field_of_append _ _ _ _ (by decide), field_of_append _ _ _ _ (by decide), field_of_append _ _ _ _ (by decide), field_of_append _ _ _ _ (by decide)]
  exact (congrArg Opcode.ofCode (BitVec.extractLsb'_eq_self)).trans (Opcode.ofCode_code _)

theorem notReg (d a : Reg) : Statement (.notReg d a) := by
  unfold Statement opcodeOf encode Word.field
  rw [field_of_append _ _ _ _ (by decide), field_of_append _ _ _ _ (by decide), field_of_append _ _ _ _ (by decide)]
  exact (congrArg Opcode.ofCode (BitVec.extractLsb'_eq_self)).trans (Opcode.ofCode_code _)

theorem ld (d : Reg) (o : BitVec 9) : Statement (.ld d o) := by
  unfold Statement opcodeOf encode Word.field
  rw [field_of_append _ _ _ _ (by decide), field_of_append _ _ _ _ (by decide)]
  exact (congrArg Opcode.ofCode (BitVec.extractLsb'_eq_self)).trans (Opcode.ofCode_code _)

theorem ldi (d : Reg) (o : BitVec 9) : Statement (.ldi d o) := by
  unfold Statement opcodeOf encode Word.field
  rw [field_of_append _ _ _ _ (by decide), field_of_append _ _ _ _ (by decide)]
  exact (congrArg Opcode.ofCode (BitVec.extractLsb'_eq_self)).trans (Opcode.ofCode_code _)

theorem ldr (d b : Reg) (o : BitVec 6) : Statement (.ldr d b o) := by
  unfold Statement opcodeOf encode Word.field
  rw [field_of_append _ _ _ _ (by decide), field_of_append _ _ _ _ (by decide), field_of_append _ _ _ _ (by decide)]
  exact (congrArg Opcode.ofCode (BitVec.extractLsb'_eq_self)).trans (Opcode.ofCode_code _)

theorem lea (d : Reg) (o : BitVec 9) : Statement (.lea d o) := by
  unfold Statement opcodeOf encode Word.field
  rw [field_of_append _ _ _ _ (by decide), field_of_append _ _ _ _ (by decide)]
  exact (congrArg Opcode.ofCode (BitVec.extractLsb'_eq_self)).trans (Opcode.ofCode_code _)

theorem st (r : Reg) (o : BitVec 9) : Statement (.st r o) := by
  unfold Statement opcodeOf encode Word.field
  rw [field_of_append _ _ _ _ (by decide), field_of_append _ _ _ _ (by decide)]
  exact (congrArg Opcode.ofCode (BitVec.extractLsb'_eq_self)).trans (Opcode.ofCode_code _)

theorem sti (r : Reg) (o : BitVec 9) : Statement (.sti r o) := by
  unfold Statement opcodeOf encode Word.field
  rw [field_of_append _ _ _ _ (by decide), field_of_append _ _ _ _ (by decide)]
  exact (congrArg Opcode.ofCode (BitVec.extractLsb'_eq_self)).trans (Opcode.ofCode_code _)

theorem str (r b : Reg) (o : BitVec 6) : Statement (.str r b o) := by
  unfold Statement opcodeOf encode Word.field
  rw [field_of_append _ _ _ _ (by decide), field_of_append _ _ _ _ (by decide), field_of_append _ _ _ _ (by decide)]
  exact (congrArg Opcode.ofCode (BitVec.extractLsb'_eq_self)).trans (Opcode.ofCode_code _)

theorem br (n z p : Bool) (o : BitVec 9) : Statement (.br n z p o) := by
  unfold Statement opcodeOf encode Word.field
  rw [field_of_append _ _ _ _ (by decide), field_of_append _ _ _ _ (by decide), field_of_append _ _ _ _ (by decide), field_of_append _ _ _ _ (by decide)]
  exact (congrArg Opcode.ofCode (BitVec.extractLsb'_eq_self)).trans (Opcode.ofCode_code _)

theorem jmp (b : Reg) : Statement (.jmp b) := by
  unfold Statement opcodeOf encode Word.field
  rw [field_of_append _ _ _ _ (by decide), field_of_append _ _ _ _ (by decide), field_of_append _ _ _ _ (by decide)]
  exact (congrArg Opcode.ofCode (BitVec.extractLsb'_eq_self)).trans (Opcode.ofCode_code _)

theorem jsr (o : BitVec 11) : Statement (.jsr o) := by
  unfold Statement opcodeOf encode Word.field
  rw [field_of_append _ _ _ _ (by decide), field_of_append _ _ _ _ (by decide)]
  exact (congrArg Opcode.ofCode (BitVec.extractLsb'_eq_self)).trans (Opcode.ofCode_code _)

theorem jsrr (b : Reg) : Statement (.jsrr b) := by
  unfold Statement opcodeOf encode Word.field
  rw [field_of_append _ _ _ _ (by decide), field_of_append _ _ _ _ (by decide), field_of_append _ _ _ _ (by decide), field_of_append _ _ _ _ (by decide)]
  exact (congrArg Opcode.ofCode (BitVec.extractLsb'_eq_self)).trans (Opcode.ofCode_code _)

theorem trapGetc : Statement .trapGetc := rfl

theorem trapOut : Statement .trapOut := rfl

theorem trapPuts : Statement .trapPuts := rfl

theorem trapIn : Statement .trapIn := rfl

theorem trapPutsp : Statement .trapPutsp := rfl

theorem trapHalt : Statement .trapHalt := rfl

theorem trapInU16 : Statement .trapInU16 := rfl

theorem trapOutU16 : Statement .trapOutU16 := rfl

theorem rtiReserved (b : BitVec 12) : Statement (.rtiReserved b) := by
  unfold Statement opcodeOf encode Word.field
  rw [field_of_append _ _ _ _ (by decide)]
  exact (congrArg Opcode.ofCode (BitVec.extractLsb'_eq_self)).trans (Opcode.ofCode_code _)

theorem unusedReserved (b : BitVec 12) : Statement (.unusedReserved b) := by
  unfold Statement opcodeOf encode Word.field
  rw [field_of_append _ _ _ _ (by decide)]
  exact (congrArg Opcode.ofCode (BitVec.extractLsb'_eq_self)).trans (Opcode.ofCode_code _)

theorem trapUnsupported (v : Byte) : Statement (.trapUnsupported v) := by
  unfold Statement opcodeOf encode encodeTrap Word.field
  rw [field_of_append _ _ _ _ (by decide), field_of_append _ _ _ _ (by decide)]
  exact (congrArg Opcode.ofCode (BitVec.extractLsb'_eq_self)).trans (Opcode.ofCode_code _)

end EncodesOwnOpcode
end Laws
end Sys2Proof
end

