-- ==== Sys2Proof/Laws/Strings.lean ====
section
/-! SUPPORT. The string loop of PUTS and PUTSP against the spec's own loop (45_trap.md R124, R126): what the loop answers
where the spec's goes on, and that it goes on for a whole pass over a memory in which only KBSR may be zero. -/

namespace Sys2Proof
namespace Claims

open Machine

/-- Two stretches of the loop, one after the other. -/
theorem StringGoesOn.trans {f : Word → List Byte} {m n : Nat} {a : Word} {s t u : State} (h : StringGoesOn f m a s t)
    (k : StringGoesOn f n (a + BitVec.ofNat 16 m) t u) : StringGoesOn f (m + n) a s u := by
  induction h with
  | start => simpa using k
  | @cell m a c s s1 s2 t h hc hw _ ih =>
    rw [Nat.add_right_comm]
    refine .cell h hc hw (ih ?_)
    rw [BitVec.add_assoc, show 1#16 + BitVec.ofNat 16 m = BitVec.ofNat 16 (m + 1) by
      rw [BitVec.add_comm]; exact (BitVec.ofNat_add m 1).symm]
    exact k

/-- Where the spec's loop goes on over `n` cells, so does the model's, and it stands at the cell after them. -/
theorem StringGoesOn.stringLoop {f : Word → List Byte} {n : Nat} {a : Word} {s t : State} (h : StringGoesOn f n a s t) :
    Machine.stringLoop f n a s = .more (a + BitVec.ofNat 16 n) t := by
  induction h with
  | start => simp [Machine.stringLoop]
  | @cell n a c s s1 s2 t h hc hw _ ih =>
    simp only [Machine.stringLoop, h, hc, hw, if_false, ih, BitVec.add_assoc]
    rw [show 1#16 + BitVec.ofNat 16 n = BitVec.ofNat 16 (n + 1) by
      rw [BitVec.add_comm]; exact (BitVec.ofNat_add n 1).symm]

/-- A memory with no zero cell but perhaps KBSR, and a host that accepts every byte. -/
def NoZeroCell (s : State) : Prop := (∀ a, a ≠ kbsrAddr → s.cell a ≠ 0x0000#16) ∧ s.outAnswers = []

/-- One cell away from KBSR_ADDR. -/
theorem NoZeroCell.one (f : Word → List Byte) {a : Word} {s : State} (h : NoZeroCell s) (ha : a ≠ kbsrAddr) :
    ∃ t, StringGoesOn f 1 a s t ∧ NoZeroCell t ∧ t.input = s.input :=
  ⟨s.setOutPending (s.outPending ++ f (s.cell a)),
    .cell (memRead_plain ha s) (h.1 a ha) (outWriteAll_accepting _ h.2) .start, h, rfl⟩

/-- The cell at KBSR_ADDR, with a nonzero byte ready. -/
theorem NoZeroCell.kbsr (f : Word → List Byte) {s : State} {b : Byte} {rest : List InEvent} (h : NoZeroCell s)
    (hb : b ≠ 0x00#8) (hi : s.input = .byte b :: rest) :
    ∃ t, StringGoesOn f 1 kbsrAddr s t ∧ NoZeroCell t ∧ t.input = rest := by
  have hz : b.setWidth 16 ≠ 0x0000#16 := fun e => hb (by
    have := congrArg (BitVec.setWidth 8) e
    simpa using this)
  have hn : NoZeroCell (((s.setInput rest).memWrite kbsrAddr kbsrReady).memWrite kbdrAddr (b.setWidth 16)) := by
    refine ⟨fun x hx => ?_, h.2⟩
    rw [State.cell_memWrite]
    split
    · exact hz
    · rw [State.cell_memWrite, if_neg hx]; exact h.1 x hx
  exact ⟨_, .cell (memRead_kbsr_byte hi) (by decide) (outWriteAll_accepting _ hn.2) .start, hn, rfl⟩

/-- `n` cells, none of them at KBSR_ADDR. -/
theorem NoZeroCell.many (f : Word → List Byte) (n : Nat) (a : Word) {s : State} (h : NoZeroCell s)
    (ha : ∀ k, k < n → a + BitVec.ofNat 16 k ≠ kbsrAddr) :
    ∃ t, StringGoesOn f n a s t ∧ NoZeroCell t ∧ t.input = s.input := by
  induction n with
  | zero => exact ⟨s, .start, h, rfl⟩
  | succ n ih =>
    obtain ⟨t, g, ht, hi⟩ := ih fun k hk => ha k (by omega)
    obtain ⟨u, g', hu, hi'⟩ := ht.one f (ha n (by omega))
    exact ⟨u, g.trans g', hu, hi'.trans hi⟩

/-- Addresses fewer than 65536 cells apart are equal only if they are the same number of cells on. -/
theorem addOfNat_inj {a : Word} {x y : Nat} (hx : x < 65536) (hy : y < 65536)
    (h : a + BitVec.ofNat 16 x = a + BitVec.ofNat 16 y) : x = y := by
  have := congrArg BitVec.toNat ((BitVec.add_right_inj a).mp h)
  simpa [Nat.mod_eq_of_lt hx, Nat.mod_eq_of_lt hy] using this

/-- A whole pass from any address: it polls the keyboard once, which takes one byte. -/
theorem NoZeroCell.pass (f : Word → List Byte) (a : Word) {s : State} {b : Byte} {rest : List InEvent} (h : NoZeroCell s)
    (hb : b ≠ 0x00#8) (hi : s.input = .byte b :: rest) :
    ∃ t, StringGoesOn f 65536 a s t ∧ NoZeroCell t ∧ t.input = rest := by
  obtain ⟨j, hj, haj⟩ : ∃ j, j < 65536 ∧ a + BitVec.ofNat 16 j = kbsrAddr := by
    refine ⟨(kbsrAddr - a).toNat, (kbsrAddr - a).isLt, ?_⟩
    rw [BitVec.ofNat_toNat, BitVec.setWidth_eq, BitVec.add_comm, BitVec.sub_add_cancel]
  obtain ⟨t, g1, h1, i1⟩ := h.many f j a fun k hk e => by
    have := addOfNat_inj (by omega) hj (e.trans haj.symm); omega
  obtain ⟨u, g2, h2, i2⟩ := h1.kbsr f hb (i1.trans hi)
  rw [← haj] at g2
  obtain ⟨v, g3, h3, i3⟩ := h2.many f (65535 - j) (a + BitVec.ofNat 16 (j + 1)) fun k hk e => by
    rw [BitVec.add_assoc, ← BitVec.ofNat_add, ← haj] at e
    have := addOfNat_inj (by omega) hj e; omega
  have g := (g1.trans g2).trans g3
  rw [show j + 1 + (65535 - j) = 65536 by omega] at g
  exact ⟨v, g, h3, i3.trans i2⟩

end Claims
end Sys2Proof
end

