-- ==== Sys2Proof/Tests/Slice0.lean ====
section
/-! SUPPORT. The model's own tests. Every expected value is a worked example, a test vector or a program of
95_test_vectors.md (its number stands in the comment), or worked out by hand from the rule named. -/

namespace Sys2Proof
namespace Tests

open Machine Claims

/-! ## Helpers -/

/-- `p` holds of the state the next step answers. -/
def after (s : State) (p : State → Bool) : Bool :=
  match step s with
  | .next t => p t
  | .fault _ => false
  | .refused _ => false

/-- The reset state with the word `w` at the address `a` and pc there. -/
def at' (a w : Word) : State := (State.reset.setPc a).withFetchWord 16 w.toNat

/-- The reset state with the word `w` at x3000. -/
def run1 (w : Word) : State := at' 0x3000#16 w

/-- A state with some cells written. -/
def withCells (s : State) (cs : List (Word × Word)) : State := cs.foldl (fun t c => t.memWrite c.1 c.2) s

/-- A state with an input stream of these bytes. -/
def withBytes (s : State) (bs : List Byte) : State := s.setInput (bs.map .byte)

/-! ## WellFormed: each check refuses an ill-formed term (30_encoding.md R74, R87) -/

theorem test_wf_refuses_getc_as_unsupported : (Instr.trapUnsupported 0x20#8).wf = false := by decide
theorem test_wf_refuses_out_as_unsupported : (Instr.trapUnsupported 0x21#8).wf = false := by decide
theorem test_wf_refuses_puts_as_unsupported : (Instr.trapUnsupported 0x22#8).wf = false := by decide
theorem test_wf_refuses_in_as_unsupported : (Instr.trapUnsupported 0x23#8).wf = false := by decide
theorem test_wf_refuses_putsp_as_unsupported : (Instr.trapUnsupported 0x24#8).wf = false := by decide
theorem test_wf_refuses_halt_as_unsupported : (Instr.trapUnsupported 0x25#8).wf = false := by decide
theorem test_wf_refuses_inU16_as_unsupported : (Instr.trapUnsupported 0x26#8).wf = false := by decide
theorem test_wf_refuses_outU16_as_unsupported : (Instr.trapUnsupported 0x27#8).wf = false := by decide
theorem test_wf_accepts_x1F : (Instr.trapUnsupported 0x1F#8).wf = true := by decide

/-! ## Decoding: words written out from the formats R76 to R85 -/

/-- opcode 0001, DR 000, SR1 001, 0, 00, SR2 010 (R76): x1042. -/
theorem test_decode_addReg : decode 0b0001_000_001_0_00_010#16 = .addReg .r0 .r1 .r2 := by decide
/-- opcode 0001, DR 011, SR1 011, 1, imm5 10000 (R77): x16F0. -/
theorem test_decode_addImm : decode 0b0001_011_011_1_10000#16 = .addImm .r3 .r3 0b10000#5 := by decide
/-- opcode 0101, DR 011, SR1 001, 0, ignored 11, SR2 010 (R75, R76). -/
theorem test_decode_andReg_ignored : decode 0b0101_011_001_0_11_010#16 = .andReg .r3 .r1 .r2 := by decide
/-- x5270, AND R1,R1,#-16 (V13). -/
theorem test_decode_andImm : decode 0b0101_001_001_1_10000#16 = .andImm .r1 .r1 0b10000#5 := by decide
/-- x9040, NOT R0,R1 with bits 5:0 = 000000 (V16). -/
theorem test_decode_not_ignored : decode 0b1001_000_001_000000#16 = .notReg .r0 .r1 := by decide
/-- x2206, LD R1,#6 (V17). -/
theorem test_decode_ld : decode 0b0010_001_000000110#16 = .ld .r1 0b000000110#9 := by decide
/-- xA402, LDI R2,#2 (V21). -/
theorem test_decode_ldi : decode 0b1010_010_000000010#16 = .ldi .r2 0b000000010#9 := by decide
/-- x62A0, LDR R1,R2,#-32 (V25). -/
theorem test_decode_ldr : decode 0b0110_001_010_100000#16 = .ldr .r1 .r2 0b100000#6 := by decide
/-- xE407, LEA R2,#7 (V26). -/
theorem test_decode_lea : decode 0b1110_010_000000111#16 = .lea .r2 0b000000111#9 := by decide
/-- x33FF, ST R1,#-1 (V30). -/
theorem test_decode_st : decode 0b0011_001_111111111#16 = .st .r1 0b111111111#9 := by decide
/-- xB203, STI R1,#3 (V31). -/
theorem test_decode_sti : decode 0b1011_001_000000011#16 = .sti .r1 0b000000011#9 := by decide
/-- x7281, STR R1,R2,#1 (V33). -/
theorem test_decode_str : decode 0b0111_001_010_000001#16 = .str .r1 .r2 0b000001#6 := by decide
/-- x0A05, BRnp #5 (V37): n = bit 11, p = bit 9. -/
theorem test_decode_br : decode 0b0000_1_0_1_000000101#16 = .br true false true 0b000000101#9 := by decide
/-- xC1C0, RET (V42), with the ignored bits set. -/
theorem test_decode_jmp_ignored : decode 0b1100_111_111_111111#16 = .jmp .r7 := by decide
/-- x4C00, JSR #-1024 (V45). -/
theorem test_decode_jsr : decode 0b0100_1_10000000000#16 = .jsr 0b10000000000#11 := by decide
/-- x4080, JSRR R2 (V47). -/
theorem test_decode_jsrr : decode 0b0100_0_00_010_000000#16 = .jsrr .r2 := by decide
/-- The eight vectors of R74, with bits 11:8 both clear and set (V68). -/
theorem test_decode_traps :
    [0xF020#16, 0xF021#16, 0xF122#16, 0xF023#16, 0xF824#16, 0xFF25#16, 0xF026#16, 0xF027#16].map decode
      = [.trapGetc, .trapOut, .trapPuts, .trapIn, .trapPutsp, .trapHalt, .trapInU16, .trapOutU16] := by decide
/-- The invalid rows (V75 to V78, V80, V67): R89 answers DecodeError. -/
theorem test_decode_errors :
    [0x8000#16, 0x8FFF#16, 0xD000#16, 0xF0FF#16, 0xF01F#16, 0xF0A5#16].map (fun w => (decode w).decodeError)
      = [some .reservedRti, some .reservedRti, some .reservedUnused, some (.unsupportedVector 0xFF#8),
         some (.unsupportedVector 0x1F#8), some (.unsupportedVector 0xA5#8)] := by decide
/-- V79: with other numbers for the two extension vectors, xF026 is no supported vector. -/
theorem test_decode_other_vectors :
    decodeWith { trapVectors with inU16 := 0x30#8, outU16 := 0x31#8 } 0xF026#16 = .trapUnsupported 0x26#8 := by decide
/-- The aliases of R92: RET and HALT encode to their words. -/
theorem test_encode_aliases : [encode (.jmp .r7), encode .trapHalt] = [0xC1C0#16, 0xF025#16] := by decide
/-- The canonical word of NOT R1,R1 is x927F (R78, V14). -/
theorem test_encode_not : encode (.notReg .r1 .r1) = 0x927F#16 := by decide

/-! ## Operate -/

/-- V2: x7FFF + x0001 = x8000, N. -/
theorem test_addReg_overflow :
    after (((run1 0x1042#16).writeReg .r1 0x7FFF#16).writeReg .r2 0x0001#16)
      (fun t => t.readReg .r0 == 0x8000#16 && t.cond == 0x0004#16 && t.pc == 0x3001#16) = true := by decide
/-- V3: xFFFF + x0001 = x0000, Z. -/
theorem test_addReg_carry :
    after (((run1 0x1042#16).writeReg .r1 0xFFFF#16).writeReg .r2 0x0001#16)
      (fun t => t.readReg .r0 == 0x0000#16 && t.cond == 0x0002#16) = true := by decide
/-- V6: R3 = x0010, ADD R3,R3,#-16 gives x0000, Z. -/
theorem test_addImm_minus16 :
    after ((run1 0x16F0#16).writeReg .r3 0x0010#16)
      (fun t => t.readReg .r3 == 0x0000#16 && t.cond == 0x0002#16) = true := by decide
/-- V10. -/
theorem test_andReg :
    after (((run1 0x5642#16).writeReg .r1 0xF0F0#16).writeReg .r2 0x0FF0#16)
      (fun t => t.readReg .r3 == 0x00F0#16 && t.cond == 0x0001#16) = true := by decide
/-- V12: AND R0,R1,#-1 copies R1. -/
theorem test_andImm_minus1 :
    after ((run1 0x507F#16).writeReg .r1 0x8001#16)
      (fun t => t.readReg .r0 == 0x8001#16 && t.cond == 0x0004#16) = true := by decide
/-- V14. -/
theorem test_not :
    after ((run1 0x927F#16).writeReg .r1 0x0005#16)
      (fun t => t.readReg .r1 == 0xFFFA#16 && t.cond == 0x0004#16) = true := by decide

/-! ## Loads -/

/-- V20: LD at xFFFF, pc wraps to x0000 before the address is formed. -/
theorem test_ld_wraps :
    after ((at' 0xFFFF#16 0x2001#16).memWrite 0x0001#16 0x0042#16)
      (fun t => t.readReg .r0 == 0x0042#16 && t.pc == 0x0000#16) = true := by decide
/-- V21. -/
theorem test_ldi :
    after (withCells (at' 0x3001#16 0xA402#16) [(0x3004#16, 0x4000#16), (0x4000#16, 0x1234#16)])
      (fun t => t.readReg .r2 == 0x1234#16 && t.cond == 0x0001#16) = true := by decide
/-- V22 and V70: LDI of KBSR with a byte ready. -/
theorem test_ldi_kbsr_byte :
    after (withBytes (withCells (at' 0x3001#16 0xA402#16) [(0x3004#16, 0xFE00#16)]) [0x61#8])
      (fun t => t.readReg .r2 == 0x8000#16 && t.cond == 0x0004#16 && t.cell 0xFE00#16 == 0x8000#16 &&
        t.cell 0xFE02#16 == 0x0061#16 && t.input == []) = true := by decide
/-- V24: the address wraps to x0000. -/
theorem test_ldr_wraps :
    after (((run1 0x6281#16).writeReg .r2 0xFFFF#16).memWrite 0x0000#16 0x0042#16)
      (fun t => t.readReg .r1 == 0x0042#16) = true := by decide
/-- V25: off6 = -32. -/
theorem test_ldr_negative :
    after (((run1 0x62A0#16).writeReg .r2 0x0010#16).memWrite 0xFFF0#16 0xFFFF#16)
      (fun t => t.readReg .r1 == 0xFFFF#16 && t.cond == 0x0004#16) = true := by decide
/-- V28: LEA sets COND, here N. -/
theorem test_lea :
    after (at' 0x8000#16 0xE1FF#16) (fun t => t.readReg .r0 == 0x8000#16 && t.cond == 0x0004#16) = true := by
  decide

/-! ## Stores -/

/-- V30: ST overwrites its own word. -/
theorem test_st_self :
    after ((run1 0x33FF#16).writeReg .r1 0xF025#16)
      (fun t => t.cell 0x3000#16 == 0xF025#16 && t.cond == 0x0002#16) = true := by decide
/-- V32: STI to KBSR is a plain store, no poll. -/
theorem test_sti_kbsr_plain :
    after (withBytes (((run1 0xB203#16).memWrite 0x3004#16 0xFE00#16).writeReg .r1 0x1234#16) [0x61#8])
      (fun t => t.cell 0xFE00#16 == 0x1234#16 && t.input == [.byte 0x61#8]) = true := by decide
/-- V34: STR wraps to address x0000. -/
theorem test_str_wraps :
    after (((run1 0x7081#16).writeReg .r0 0x1111#16).writeReg .r2 0xFFFF#16)
      (fun t => t.cell 0x0000#16 == 0x1111#16) = true := by decide

/-! ## Control -/

/-- V35: BRp #-3 at x3004 with COND = P. -/
theorem test_br_taken :
    after ((at' 0x3004#16 0x03FD#16).setCond 0x0001#16) (fun t => t.pc == 0x3002#16) = true := by decide
/-- V37: BRnp #5 with COND = Z is not taken (E4). -/
theorem test_br_not_taken : after (run1 0x0A05#16) (fun t => t.pc == 0x3001#16) = true := by decide
/-- V42. -/
theorem test_ret :
    after ((run1 0xC1C0#16).writeReg .r7 0x3003#16) (fun t => t.pc == 0x3003#16 && t.cond == 0x0002#16) = true := by
  decide
/-- V45: JSR #-1024. -/
theorem test_jsr :
    after (run1 0x4C00#16) (fun t => t.pc == 0x2C01#16 && t.readReg .r7 == 0x3001#16) = true := by decide
/-- V47. -/
theorem test_jsrr :
    after ((run1 0x4080#16).writeReg .r2 0x4000#16)
      (fun t => t.pc == 0x4000#16 && t.readReg .r7 == 0x3001#16) = true := by decide
/-- V48 and V49: JSRR R7 under both values of JSRR_BASE_SAMPLE, with pc = x3001 in the execute phase. -/
theorem test_jsrr_r7 :
    [(jsrrWith .afterLink .r7 ((State.reset.setPc 0x3001#16).writeReg .r7 0x4000#16)).pc,
     (jsrrWith .beforeLink .r7 ((State.reset.setPc 0x3001#16).writeReg .r7 0x4000#16)).pc]
      = [0x3001#16, 0x4000#16] := by decide

/-! ## Traps -/

/-- V50. -/
theorem test_getc :
    after (withBytes ((run1 0xF020#16).writeReg .r0 0xFFFF#16) [0x6B#8])
      (fun t => t.readReg .r0 == 0x006B#16 && t.readReg .r7 == 0x3001#16 && t.outDelivered == [] && t.pc == 0x3001#16)
      = true := by decide
/-- V51: end of input, with R7 already written. -/
theorem test_getc_error :
    after ((run1 0xF020#16).setInput [.error])
      (fun t => t.runState == .faulted .io && t.readReg .r7 == 0x3001#16) = true := by decide
/-- V52. -/
theorem test_out :
    after ((run1 0xF021#16).writeReg .r0 0x1241#16)
      (fun t => t.outDelivered == [0x41#8] && t.outPending == [] && t.readReg .r7 == 0x3001#16) = true := by
  decide
/-- V55: the low byte of each cell. -/
theorem test_puts :
    after (withCells ((run1 0xF022#16).writeReg .r0 0x4000#16) [(0x4000#16, 0x4142#16), (0x4001#16, 0x0143#16)])
      (fun t => t.outDelivered == [0x42#8, 0x43#8] && t.readReg .r0 == 0x4000#16 && t.busy == none) = true := by
  decide
/-- R100's example: the second OutWrite fails; one byte and R7 are written. -/
theorem test_puts_error :
    after ((withCells ((run1 0xF022#16).writeReg .r0 0x4000#16) [(0x4000#16, 0x0041#16), (0x4001#16, 0x0042#16)]).setOutAnswers
        [.ok, .error])
      (fun t => t.runState == .faulted .io && t.outPending == [0x41#8] && t.readReg .r7 == 0x3001#16) = true := by
  decide
/-- V56. -/
theorem test_in :
    after (withBytes (run1 0xF023#16) [0x37#8])
      (fun t => t.readReg .r0 == 0x0037#16 && t.outDelivered == [0x37#8]) = true := by decide
/-- V57: high byte first, both bytes of every nonzero cell. -/
theorem test_putsp :
    after (withCells ((run1 0xF024#16).writeReg .r0 0x4000#16) [(0x4000#16, 0x4142#16), (0x4001#16, 0x4300#16)])
      (fun t => t.outDelivered == [0x41#8, 0x42#8, 0x43#8, 0x00#8]) = true := by decide
/-- V58. -/
theorem test_halt :
    after ((run1 0xF025#16).writeReg .r7 0x1111#16)
      (fun t => t.runState == .halted && t.pc == 0x3001#16 && t.readReg .r7 == 0x1111#16) = true := by decide
/-- V63: "2a5\r\n" gives 25. -/
theorem test_inU16 :
    after (withBytes (run1 0xF026#16) [0x32#8, 0x61#8, 0x35#8, 0x0D#8, 0x0A#8, 0x39#8])
      (fun t => t.readReg .r0 == 0x0019#16 && t.input == [.byte 0x39#8] && t.outDelivered == []) = true := by
  decide
/-- V61: "65536\n" is Fatal(PARSE). -/
theorem test_inU16_overflow :
    after (withBytes (run1 0xF026#16) [0x36#8, 0x35#8, 0x35#8, 0x33#8, 0x36#8, 0x0A#8])
      (fun t => t.runState == .faulted .parse && t.readReg .r7 == 0x3001#16) = true := by decide
/-- V65. -/
theorem test_outU16_max :
    after ((run1 0xF027#16).writeReg .r0 0xFFFF#16)
      (fun t => t.outDelivered == [0x36#8, 0x35#8, 0x35#8, 0x33#8, 0x35#8]) = true := by decide
/-- V66. -/
theorem test_outU16_zero :
    after (run1 0xF027#16) (fun t => t.outDelivered == [0x30#8]) = true := by decide

/-! ## Blocking reads (10_state.md R36; 45_trap.md R131) -/

/-- With no byte, GETC holds the engine: R7 is written, nothing is fetched. -/
theorem test_getc_waits :
    after (run1 0xF020#16) (fun t => t.busy == some .getc && t.readReg .r7 == 0x3001#16 && t.pc == 0x3001#16)
      = true := by decide
/-- A byte that comes later completes it. -/
theorem test_getc_resumes :
    after (((run1 0x0000#16).setBusy (some .getc)).hostSupply [.noByte, .byte 0x6B#8])
      (fun t => t.busy == none && t.readReg .r0 == 0x006B#16 && t.pc == 0x3000#16) = true := by decide

/-! ## Keyboard registers, decode errors, terminal states -/

/-- V73: a poll Error is Fatal(IO). -/
theorem test_kbsr_error :
    after (((run1 0x6280#16).writeReg .r2 0xFE00#16).setInput [.error])
      (fun t => t.runState == .faulted .io && t.pc == 0x3001#16) = true := by decide
/-- V71: a second KBSR read with no byte gives x0000 and leaves KBDR. -/
theorem test_kbsr_second_read :
    after (((run1 0x6280#16).writeReg .r2 0xFE00#16).memWrite 0xFE02#16 0x0061#16)
      (fun t => t.readReg .r1 == 0x0000#16 && t.cond == 0x0002#16 && t.cell 0xFE02#16 == 0x0061#16) = true := by
  decide
/-- V75. -/
theorem test_rti :
    after (run1 0x8000#16) (fun t => t.runState == .faulted .decode && t.pc == 0x3001#16) = true := by decide
/-- V77. -/
theorem test_unused : after (run1 0xD000#16) (fun t => t.runState == .faulted .decode) = true := by decide
/-- V67. -/
theorem test_unsupported_vector :
    after (run1 0xF0A5#16) (fun t => t.runState == .faulted .decode && t.pc == 0x3001#16) = true := by decide
/-- 70_reset_and_hazards.md R163: a fetch at KBSR with a byte ready runs x8000, a decode error. -/
theorem test_fetch_at_kbsr :
    after (withBytes (State.reset.setPc 0xFE00#16) [0x61#8])
      (fun t => t.runState == .faulted .decode && t.cell 0xFE02#16 == 0x0061#16) = true := by decide
/-- R99: a poll Error of the fetch at KBSR raises Fatal(IO) before the increment. -/
theorem test_fetch_at_kbsr_error :
    after ((State.reset.setPc 0xFE00#16).setInput [.error])
      (fun t => t.runState == .faulted .io && t.pc == 0xFE00#16 && t.mem == []) = true := by decide
/-- The codes of R138. -/
theorem test_fault_codes :
    [FatalReason.code .decode, FatalReason.code .io, FatalReason.code .parse] = [1, 2, 3] := by decide

/-! ## The loader -/

/-- A big-endian image at x3000 with a trailing odd byte (R53). -/
theorem test_load :
    (match loadImage [0x30#8, 0x00#8, 0x12#8, 0x63#8, 0xF0#8, 0x25#8, 0x77#8] State.reset with
      | .ok s => s.mem == [(0x3000, 0x1263#16), (0x3001, 0xF025#16)]
      | .error _ => false) = true := by decide
/-- An origin other than PC_START is refused (70_reset_and_hazards.md R153). -/
theorem test_load_origin :
    (match loadImage [0x40#8, 0x00#8, 0x12#8, 0x63#8] State.reset with
      | .ok _ => false
      | .error e => e == .originNotPcStart 0x4000#16) = true := by decide

/-! ## Witnesses: for every obligation with hypotheses, a state and operands that meet all of them, at the boundary of
each clause. The word after `witness_` is the obligation's name. -/

/-- x3000 holds `w`, and the machine is inside its execute phase: pc = x3001. -/
def mid (w : Word) : State := (run1 w).setPc 0x3001#16

theorem witness_DecodeOfEncodeIsTheInstruction :
    (Instr.trapUnsupported 0x28#8).wf = true ∧ (Instr.addImm .r7 .r0 0b10000#5).wf = true := by decide

theorem witness_StepRunsTheDecodedInstruction :
    (run1 0x1042#16).runState = .running ∧ (run1 0x1042#16).busy = none ∧ (run1 0x1042#16).pc ≠ kbsrAddr := by decide
/-- The second clause, at KBSR_ADDR itself. -/
theorem witness_StepRunsTheDecodedInstruction_kbsr :
    ∃ w s1, (State.reset.setPc kbsrAddr).runState = .running ∧ (State.reset.setPc kbsrAddr).busy = none ∧
      memRead (State.reset.setPc kbsrAddr).pc (State.reset.setPc kbsrAddr) = .ok w s1 := ⟨_, _, rfl, rfl, rfl⟩

/-- The third clause. -/
theorem witness_StepRunsTheDecodedInstruction_fatal :
    ∃ r s1, memRead kbsrAddr ((State.reset.setPc kbsrAddr).setInput [.error]) = .fatal r s1 := ⟨_, _, rfl⟩

/-- The machine about to fetch at KBSR_ADDR, with the input `es`. -/
def atKbsr (es : List InEvent) : State := (State.reset.setPc kbsrAddr).setInput es

theorem witness_FetchAtKbsrRunsThePolledValue :
    (∀ es, (atKbsr es).runState = .running ∧ (atKbsr es).busy = none ∧ (atKbsr es).pc = kbsrAddr) ∧
    (atKbsr [.byte 0xFF#8]).input = .byte 0xFF#8 :: [] ∧ (atKbsr [.noByte]).input = .noByte :: [] ∧
    (atKbsr []).input = [] ∧ (atKbsr [.error]).input = .error :: [] :=
  ⟨fun _ => ⟨rfl, rfl, rfl⟩, rfl, rfl, rfl, rfl⟩

theorem witness_TerminalStatesNeverChange :
    (State.reset.setRunState .halted).runState ≠ .running ∧
    (State.reset.setRunState (.faulted .io)).runState ≠ .running := by decide

theorem witness_OnlyTrapHaltReachesHalted :
    ∃ t, step (run1 0xF025#16) = .next t ∧ (run1 0xF025#16).runState = .running ∧ t.runState = .halted :=
  ⟨_, rfl, rfl, rfl⟩

/-- The words at the edges: x7FFF and xF027 raise nothing, x8000, xDFFF, xF01F and xF028 do. -/
theorem witness_DecodeErrorsAreExactlyTheReservedWords :
    ∀ w ∈ [0x7FFF#16, 0xF027#16, 0x8000#16, 0xDFFF#16, 0xF01F#16, 0xF028#16],
      (run1 w).runState = .running ∧ (run1 w).busy = none ∧ ∃ s1, memRead (run1 w).pc (run1 w) = .ok w s1 := by
  intro w hw
  refine ⟨rfl, rfl, ?_⟩
  simp only [List.mem_cons, List.not_mem_nil, or_false] at hw
  rcases hw with rfl | rfl | rfl | rfl | rfl | rfl <;> exact ⟨_, rfl⟩

theorem witness_ReservedWordsRaiseDecode :
    0x8FFF#16 &&& 0xF000#16 = 0x8000#16 ∧ 0xD000#16 &&& 0xF000#16 = 0xD000#16 ∧
    0xF028#16 &&& 0xF000#16 = 0xF000#16 ∧ (0xF028#16).extractLsb' 0 8 ∉ vectorList trapVectors := by decide

/-- A running machine whose input stream has failed. -/
def broken (w : Word) : State := (mid w).setInput [.error]

theorem witness_FaultReasonsHaveTheirSources_decode :
    ∃ t, exec (.rtiReserved 0#12) (mid 0x8000#16) = .next t ∧ (mid 0x8000#16).runState = .running ∧
      t.runState = .faulted .decode := ⟨_, rfl, rfl, rfl⟩
theorem witness_FaultReasonsHaveTheirSources_parse :
    ∃ t, exec .trapInU16 (withBytes (mid 0xF026#16) [0x0A#8]) = .next t ∧
      (withBytes (mid 0xF026#16) [0x0A#8]).runState = .running ∧ t.runState = .faulted .parse := ⟨_, rfl, rfl, rfl⟩
theorem witness_FaultReasonsHaveTheirSources_io :
    ∃ t, exec .trapGetc (broken 0xF020#16) = .next t ∧ (broken 0xF020#16).runState = .running ∧
      t.runState = .faulted .io := ⟨_, rfl, rfl, rfl⟩

/-- A reserved word at the top of memory; a fetch at KBSR_ADDR from a failed stream; a call in progress on one. -/
theorem witness_FatalErrorsLeavePcAfterTheWord :
    (∃ t w s1, (at' 0xFFFF#16 0xD000#16).runState = .running ∧ step (at' 0xFFFF#16 0xD000#16) = .next t ∧
      t.runState.isFaulted = true ∧ (at' 0xFFFF#16 0xD000#16).busy = none ∧
      memRead (at' 0xFFFF#16 0xD000#16).pc (at' 0xFFFF#16 0xD000#16) = .ok w s1) ∧
    (∃ t r s1, (atKbsr [.error]).runState = .running ∧ step (atKbsr [.error]) = .next t ∧
      t.runState.isFaulted = true ∧ (atKbsr [.error]).busy = none ∧
      memRead (atKbsr [.error]).pc (atKbsr [.error]) = .fatal r s1) ∧
    (∃ t, ((broken 0xF020#16).setBusy (some .getc)).runState = .running ∧
      step ((broken 0xF020#16).setBusy (some .getc)) = .next t ∧ t.runState.isFaulted = true ∧
      ((broken 0xF020#16).setBusy (some .getc)).busy ≠ none) :=
  ⟨⟨_, _, _, rfl, rfl, rfl, rfl, rfl⟩, ⟨_, _, _, rfl, rfl, rfl, rfl, rfl⟩, _, rfl, rfl, rfl, by decide⟩

theorem witness_EveryStepKeepsTheInvariant :
    Inv (run1 0x14A1#16) ∧ ∃ t, step (run1 0x14A1#16) = .next t :=
  ⟨⟨by decide, by decide, fun _ => rfl, (fun _ h => by cases h), fun _ _ => rfl⟩, _, rfl⟩

theorem witness_CondAlwaysHoldsExactlyOneFlag : (State.reset.setCond 0x0004#16).cond = 0x0004#16 := rfl

theorem witness_PortsKeepTheOrderOfBytes :
    ∃ t, step ((run1 0xF021#16).setOutDelivered [0x41#8]) = .next t ∧ t.outDelivered = [0x41#8, 0x00#8] :=
  ⟨_, rfl, rfl⟩

theorem witness_OnlyListedRegistersAreWritten :
    ∃ t, exec .trapGetc (withBytes (mid 0xF020#16) [0x6B#8]) = .next t ∧ Reg.r1 ∉ writesRegs .trapGetc :=
  ⟨_, rfl, by decide⟩

theorem witness_OnlyFetchAndControlTransfersWritePc :
    (∃ t, exec .trapHalt (mid 0xF025#16) = .next t ∧ writesPc .trapHalt = false) ∧
    branchTaken true false true (mid 0x0A05#16) = false ∧
    (∃ t, ((mid 0xF020#16).setBusy (some .getc)).runState = .running ∧
      ((mid 0xF020#16).setBusy (some .getc)).busy ≠ none ∧ step ((mid 0xF020#16).setBusy (some .getc)) = .next t) ∧
    (∃ t, step (run1 0xC1C0#16) = .next t) :=
  ⟨⟨_, rfl, rfl⟩, by decide, ⟨_, rfl, by decide, rfl⟩, _, rfl⟩

theorem witness_ExactlyTheListedInstructionsSetCond :
    (∃ t, exec (.lea .r0 0#9) (mid 0xE000#16) = .next t ∧ (mid 0xE000#16).runState = .running ∧
      setsCond (.lea .r0 0#9) = true ∧ t.runState = .running ∧ Reg.r0 ∈ writesRegs (.lea .r0 0#9)) ∧
    (∃ t, exec (.jsr 0#11) (mid 0x4800#16) = .next t ∧ setsCond (.jsr 0#11) = false) :=
  ⟨⟨_, rfl, rfl, rfl, rfl, by decide⟩, _, rfl, rfl⟩

theorem witness_CondIsConsultedOnlyByBranches :
    (∀ n z p o, Instr.ld .r0 0#9 ≠ .br n z p o) ∧ ∃ t, exec (.ld .r0 0#9) (mid 0x2000#16) = .next t :=
  ⟨(fun _ _ _ _ h => by cases h), _, rfl⟩

/-- A load at KBSR_ADDR, which polls. -/
theorem witness_OnlyStoresAndThePollWriteMemory :
    (∃ t, exec (.ldr .r1 .r2 0#6) ((mid 0x6280#16).writeReg .r2 kbsrAddr) = .next t ∧
      isStore (.ldr .r1 .r2 0#6) = false ∧ 0xFE01#16 ≠ kbsrAddr ∧ 0xFE01#16 ≠ kbdrAddr) ∧
    readsMemory .trapHalt = false := ⟨⟨_, rfl, rfl, by decide, by decide⟩, rfl⟩

/-- STI whose pointer cell is KBSR_ADDR: the poll happens, then the store. -/
theorem witness_StoresChangeOnlyTheirTarget :
    (∃ p s1 t, storeTarget (.sti .r1 0#9) ((mid 0xB200#16).setPc kbsrAddr) = some (p, s1) ∧
      exec (.sti .r1 0#9) ((mid 0xB200#16).setPc kbsrAddr) = .next t) ∧
    (∃ p s1 t, storeTarget (.st .r1 0#9) (mid 0x3200#16) = some (p, s1) ∧
      exec (.st .r1 0#9) (mid 0x3200#16) = .next t ∧ ∀ r o, Instr.st .r1 0#9 ≠ .sti r o) :=
  ⟨⟨_, _, _, rfl, rfl⟩, _, _, _, rfl, rfl, fun _ _ h => by cases h⟩

theorem witness_OnlyTrapsUseTheConsole :
    (∃ t, exec (.ld .r0 0#9) (mid 0x2000#16) = .next t) ∧
    Instr.ld .r0 0#9 ∉ [.trapGetc, .trapOut, .trapPuts, .trapIn, .trapPutsp, .trapHalt, .trapInU16, .trapOutU16] ∧
    readsMemory (.jmp .r0) = false := ⟨⟨_, rfl⟩, by decide, rfl⟩

/-- The word tests of the instructions of one word: each holds of a word of the instruction, ignored bits set. -/
theorem witness_AddRegisterForm : 0x1FDF#16 &&& 0xF020#16 = 0x1000#16 := by decide
theorem witness_AddImmediateForm : 0x16F0#16 &&& 0xF020#16 = 0x1020#16 := by decide
theorem witness_AndRegisterForm : 0x5FDF#16 &&& 0xF020#16 = 0x5000#16 := by decide
theorem witness_AndImmediateForm : 0x5270#16 &&& 0xF020#16 = 0x5020#16 := by decide
theorem witness_NotComplementsItsSource : 0x9FC0#16 &&& 0xF000#16 = 0x9000#16 := by decide
theorem witness_LeaWritesTheAddress : 0xE1FF#16 &&& 0xF000#16 = 0xE000#16 := by decide
theorem witness_BrTestsTheFlagItsMaskNames :
    0x0A05#16 &&& 0xF000#16 = 0x0000#16 ∧ (State.reset.setCond 0x0004#16).cond = 0x0004#16 ∧
    State.reset.cond = 0x0002#16 ∧ (State.reset.setCond 0x0001#16).cond = 0x0001#16 := by decide
theorem witness_JmpGoesToItsBase : 0xCFFF#16 &&& 0xF000#16 = 0xC000#16 := by decide
theorem witness_JsrLinksAndJumps : 0x4C00#16 &&& 0xF800#16 = 0x4800#16 := by decide
theorem witness_JsrrLinksAndJumpsToItsBase :
    0x41C0#16 &&& 0xF800#16 = 0x4000#16 ∧ regAt 0x41C0#16 6 = .r7 ∧ Reg.r6 ≠ .r7 := by decide
theorem witness_HaltSetsTheHaltState : 0xFF25#16 &&& 0xF0FF#16 = 0xF025#16 := by decide

theorem witness_ReadsOfKbsrPollAndOtherReadsAreLookups :
    kbdrAddr ≠ kbsrAddr ∧ (atKbsr [.byte 0x61#8]).input = .byte 0x61#8 :: [] ∧
    ((atKbsr [.noByte]).input = .noByte :: [] ∧ (atKbsr []).input = []) ∧ (atKbsr [.error]).input = .error :: [] := by
  decide

/-- The three clauses of the loads: away from KBSR_ADDR (one cell above it), at KBSR_ADDR with no byte, and there with a
failed stream. -/
theorem witness_LdLoadsTheCellAtPcPlusOffset :
    0x2200#16 &&& 0xF000#16 = 0x2000#16 ∧ (0xFE01#16 ≠ kbsrAddr) ∧
    (∃ v s1, memRead kbsrAddr (atKbsr []) = .ok v s1) ∧
    (atKbsr []).pc + ((0x2200#16).extractLsb' 0 9).signExtend 16 = kbsrAddr ∧
    (∃ r s1, memRead kbsrAddr (atKbsr [.error]) = .fatal r s1) :=
  ⟨by decide, by decide, ⟨_, _, rfl⟩, by decide, _, _, rfl⟩
theorem witness_LdrLoadsTheCellAtBasePlusOffset :
    0x6281#16 &&& 0xF000#16 = 0x6000#16 ∧
    0xFE01#16 = ((atKbsr []).writeReg .r2 kbsrAddr).readReg (regAt 0x6281#16 6) + ((0x6281#16).extractLsb' 0 6).signExtend 16 ∧
    0xFE01#16 ≠ kbsrAddr ∧
    kbsrAddr = ((atKbsr []).writeReg .r2 kbsrAddr).readReg (regAt 0x6280#16 6) + ((0x6280#16).extractLsb' 0 6).signExtend 16 ∧
    (∃ v s1, memRead kbsrAddr ((atKbsr []).writeReg .r2 kbsrAddr) = .ok v s1) ∧
    (∃ r s1, memRead kbsrAddr ((atKbsr [.error]).writeReg .r2 kbsrAddr) = .fatal r s1) :=
  ⟨by decide, by decide, by decide, by decide, ⟨_, _, rfl⟩, _, _, rfl⟩
/-- LDI with its pointer cell at pc: a pointer to x4000; a pointer to KBSR_ADDR, with no byte and with a failed stream; and
the pointer cell KBSR_ADDR itself with a failed stream. -/
theorem witness_LdiLoadsThroughThePointer :
    0xA400#16 &&& 0xF000#16 = 0xA000#16 ∧
    0x3001#16 = (mid 0xA400#16).pc + ((0xA400#16).extractLsb' 0 9).signExtend 16 ∧
    (0x3001#16 ≠ kbsrAddr ∧ ((mid 0xA400#16).memWrite 0x3001#16 0x4000#16).cell 0x3001#16 ≠ kbsrAddr) ∧
    (∃ p s1 v s2, memRead 0x3001#16 ((mid 0xA400#16).memWrite 0x3001#16 kbsrAddr) = .ok p s1 ∧
      memRead p s1 = .ok v s2) ∧
    (∃ p s1 r s2, memRead 0x3001#16 ((broken 0xA400#16).memWrite 0x3001#16 kbsrAddr) = .ok p s1 ∧
      memRead p s1 = .fatal r s2) ∧
    kbsrAddr = (atKbsr [.error]).pc + ((0xA400#16).extractLsb' 0 9).signExtend 16 ∧
    (∃ r s1, memRead kbsrAddr (atKbsr [.error]) = .fatal r s1) :=
  ⟨by decide, by decide, by decide, ⟨_, _, _, _, rfl, rfl⟩, ⟨_, _, _, _, rfl, rfl⟩, by decide, _, _, rfl⟩

theorem witness_StWritesTheCellAtPcPlusOffset :
    0x33FF#16 &&& 0xF000#16 = 0x3000#16 ∧
    0x3000#16 = (mid 0x33FF#16).pc + ((0x33FF#16).extractLsb' 0 9).signExtend 16 := by decide
theorem witness_StiWritesThroughThePointer :
    0xB200#16 &&& 0xF000#16 = 0xB000#16 ∧
    0x3001#16 = (mid 0xB200#16).pc + ((0xB200#16).extractLsb' 0 9).signExtend 16 ∧ 0x3001#16 ≠ kbsrAddr ∧
    kbsrAddr = (atKbsr []).pc + ((0xB200#16).extractLsb' 0 9).signExtend 16 ∧
    (∃ p s1, memRead kbsrAddr (atKbsr []) = .ok p s1) ∧ (∃ r s1, memRead kbsrAddr (atKbsr [.error]) = .fatal r s1) :=
  ⟨by decide, by decide, by decide, by decide, ⟨_, _, rfl⟩, _, _, rfl⟩
theorem witness_StrWritesTheCellAtBasePlusOffset :
    0x7081#16 &&& 0xF000#16 = 0x7000#16 ∧
    0x0000#16 = ((mid 0x7081#16).writeReg .r2 0xFFFF#16).readReg (regAt 0x7081#16 6) +
      ((0x7081#16).extractLsb' 0 6).signExtend 16 := by decide

/-- STI R1 and LDI R3 through the pointer cell x3001, which holds x4000; the LDI runs with pc = x3000. -/
theorem witness_StiThenLdiGivesTheValueBack :
    let s := (mid 0xB200#16).memWrite 0x3001#16 0x4000#16
    pcRelative 0#9 s ≠ kbsrAddr ∧ s.cell (pcRelative 0#9 s) ≠ pcRelative 0#9 s ∧
    s.cell (pcRelative 0#9 s) ≠ kbsrAddr ∧ 0x3000#16 + (1#9).signExtend 16 = pcRelative 0#9 s ∧
    ∃ t, exec (.sti .r1 0#9) s = .next t :=
  ⟨by decide, by decide, by decide, by decide, _, rfl⟩
theorem witness_StoreIntoTheNextWordIsExecuted :
    (run1 0x3200#16).runState = .running ∧ (run1 0x3200#16).busy = none ∧ (run1 0x3200#16).pc ≠ kbsrAddr ∧
    (run1 0x3200#16).pc + 1#16 ≠ kbsrAddr ∧ decode ((run1 0x3200#16).cell (run1 0x3200#16).pc) = .st .r1 0#9 := by
  decide

theorem witness_GetcReadsOneByteIntoR0 :
    0xFF20#16 &&& 0xF0FF#16 = 0xF020#16 ∧
    (atKbsr [.noByte, .byte 0xFF#8]).input = [.noByte] ++ .byte 0xFF#8 :: [] ∧
    (atKbsr [.noByte, .error]).input = [.noByte] ++ .error :: [] ∧ (∀ e ∈ [InEvent.noByte], e = .noByte) := by decide
/-- Answers Ok and Ok; Error; Ok and Error. -/
theorem witness_OutWritesTheLowByteOfR0 :
    0xF021#16 &&& 0xF0FF#16 = 0xF021#16 ∧ (∀ a ∈ (State.reset.setOutAnswers [.ok, .ok, .error]).outAnswers.take 2, a = .ok) ∧
    (State.reset.setOutAnswers [.error]).outAnswers = .error :: [] ∧
    (State.reset.setOutAnswers [.ok, .error]).outAnswers = .ok :: .error :: [] := by decide
theorem witness_OutWritesTheLowByteOfR0_outOk : outOk 2 (State.reset.setOutAnswers [.ok, .ok, .error]) :=
  witness_OutWritesTheLowByteOfR0.2.1

/-- The string of the one cell x4142 at xFFFF, which the zero cell x0000 ends: the address wraps. -/
def wrapped : State := ((mid 0xF022#16).writeReg .r0 0xFFFF#16).memWrite 0xFFFF#16 0x4142#16

theorem wrapped_cells (k : Nat) (h : k < [0x4142#16].length) :
    wrapped.cell (wrapped.readReg .r0 + BitVec.ofNat 16 k) = [0x4142#16][k] := by
  obtain rfl : k = 0 := by simpa using h
  rfl
theorem wrapped_accepts (n : Nat) : outOk n wrapped := by
  have : wrapped.outAnswers = [] := rfl
  simp [outOk, this]
theorem wrapped_end : wrapped.cell (wrapped.readReg .r0 + BitVec.ofNat 16 [0x4142#16].length) = 0x0000#16 := by
  decide
theorem wrapped_away (k : Nat) (h : k ≤ [0x4142#16].length) :
    wrapped.readReg .r0 + BitVec.ofNat 16 k ≠ kbsrAddr := by
  obtain rfl | rfl : k = 0 ∨ k = 1 := by simp at h; omega
  all_goals decide

theorem witness_PutsWritesTheLowByteOfEachCell :
    0xF022#16 &&& 0xF0FF#16 = 0xF022#16 ∧ [0x4142#16].length < 65536 ∧ (∀ c ∈ [0x4142#16], c ≠ 0x0000#16) ∧
    (∀ (k : Nat) (h : k < [0x4142#16].length), wrapped.cell (wrapped.readReg .r0 + BitVec.ofNat 16 k) = [0x4142#16][k]) ∧
    wrapped.cell (wrapped.readReg .r0 + BitVec.ofNat 16 [0x4142#16].length) = 0x0000#16 ∧
    (∀ k : Nat, k ≤ [0x4142#16].length → wrapped.readReg .r0 + BitVec.ofNat 16 k ≠ kbsrAddr) ∧
    outOk ([0x4142#16].length + 1) wrapped :=
  ⟨by decide, by simp, by simp, wrapped_cells, wrapped_end, wrapped_away, wrapped_accepts _⟩
theorem witness_PutspWritesBothBytesHighFirst :
    0xF024#16 &&& 0xF0FF#16 = 0xF024#16 ∧ [0x4142#16].length < 65536 ∧ (∀ c ∈ [0x4142#16], c ≠ 0x0000#16) ∧
    (∀ (k : Nat) (h : k < [0x4142#16].length), wrapped.cell (wrapped.readReg .r0 + BitVec.ofNat 16 k) = [0x4142#16][k]) ∧
    wrapped.cell (wrapped.readReg .r0 + BitVec.ofNat 16 [0x4142#16].length) = 0x0000#16 ∧
    (∀ k : Nat, k ≤ [0x4142#16].length → wrapped.readReg .r0 + BitVec.ofNat 16 k ≠ kbsrAddr) ∧
    outOk (2 * [0x4142#16].length + 1) wrapped :=
  ⟨by decide, by simp, by simp, wrapped_cells, wrapped_end, wrapped_away, wrapped_accepts _⟩

/-- A string of one cell, then the zero cell: the loop reads 2 cells. -/
theorem witness_StringCallsRunTheirLoop :
    (∃ e, StringRun putsBytes 2 (wrapped.readReg .r0) (linked wrapped) e) ∧
    (∃ e, StringRun putspBytes 2 (wrapped.readReg .r0) (linked wrapped) e) :=
  ⟨⟨_, .cell (n := 1) rfl (by decide) rfl (.zeroCell rfl)⟩, ⟨_, .cell (n := 1) rfl (by decide) rfl (.zeroCell rfl)⟩⟩
/-- The same loop gone on with from its first cell, and one whose read at KBSR_ADDR fails. -/
theorem witness_StringCallsRunTheirLoop_resumed :
    (∃ e, (wrapped.setBusy (some (.puts 0xFFFF#16))).runState = .running ∧
      (wrapped.setBusy (some (.puts 0xFFFF#16))).busy = some (.puts 0xFFFF#16) ∧
      StringRun putsBytes 2 0xFFFF#16 (wrapped.setBusy (some (.puts 0xFFFF#16))) e) ∧
    (∃ e, ((broken 0xF024#16).setBusy (some (.putsp kbsrAddr))).busy = some (.putsp kbsrAddr) ∧
      StringRun putspBytes 1 kbsrAddr ((broken 0xF024#16).setBusy (some (.putsp kbsrAddr))) e) :=
  ⟨⟨_, rfl, rfl, .cell (n := 1) rfl (by decide) rfl (.zeroCell rfl)⟩, ⟨_, rfl, .readFails rfl⟩⟩

/-- The cells `lo` to `lo + n - 1`, each holding x4142. -/
def filled (lo n : Nat) : Memory := (List.range' lo n).map fun k => (k, 0x4142#16)

theorem filled_get (n lo a : Nat) (h : lo ≤ a) (h' : a < lo + n) : (filled lo n).get a = 0x4142#16 := by
  induction n generalizing lo with
  | zero => omega
  | succ n ih =>
    by_cases e : lo = a
    · simp [filled, List.range'_succ, Memory.get, e]
    · simp only [filled, List.range'_succ, List.map_cons, Memory.get, e, if_false]
      exact ih (lo + 1) (by omega) (by omega)

/-- No cell of memory is zero, two bytes are ready, and R0 holds xFE01, one above KBSR_ADDR. -/
def endless : State := (withBytes (mid 0xF022#16) [0x61#8, 0x62#8]).setMem (filled 0 65536)
  |>.writeReg .r0 0xFE01#16

theorem endless_cells (a : Word) : endless.cell a ≠ 0x0000#16 := by
  have : endless.cell a = 0x4142#16 := filled_get 65536 0 a.toNat (Nat.zero_le _) (by simpa using a.isLt)
  rw [this]; decide

/-- The burst used up: from R0 in the execute phase of PUTS and PUTSP, and from KBSR_ADDR in a call in progress. -/
theorem witness_StringCallsRunTheirLoop_goesOn :
    (∃ t, StringGoesOn putsBytes 65536 (endless.readReg .r0) (linked endless) t) ∧
    (∃ t, StringGoesOn putspBytes 65536 (endless.readReg .r0) (linked endless) t) ∧
    (∃ t, StringGoesOn putsBytes 65536 kbsrAddr (endless.setBusy (some (.puts kbsrAddr))) t) ∧
    (∃ t, StringGoesOn putspBytes 65536 kbsrAddr (endless.setBusy (some (.putsp kbsrAddr))) t) := by
  have pass (f : Word → List Byte) (a : Word) (s : State) (hm : s.mem = endless.mem) (ho : s.outAnswers = [])
      (hi : s.input = endless.input) : ∃ t, StringGoesOn f 65536 a s t := by
    have hn : NoZeroCell s := ⟨fun x _ => by rw [State.cell_congr hm]; exact endless_cells x, ho⟩
    exact (hn.pass f a (b := 0x61#8) (by decide) hi).imp fun _ h => h.1
  exact ⟨pass _ _ _ rfl rfl rfl, pass _ _ _ rfl rfl rfl, pass _ _ _ rfl rfl rfl, pass _ _ _ rfl rfl rfl⟩

theorem witness_StringsWithNoZeroCellNeverEnd :
    endless.runState = .running ∧ (∀ a, a ≠ kbsrAddr → endless.cell a ≠ 0x0000#16) ∧
    (∀ c ∈ (0x61#8 : Byte) :: [0x62#8], c ≠ 0x00#8) ∧
    endless.input = ((0x61#8 : Byte) :: [0x62#8]).map InEvent.byte ++ [] ∧ endless.outAnswers = [] ∧
    (Instr.trapPuts, InProgress.puts (endless.readReg .r0)) ∈
      [(Instr.trapPuts, InProgress.puts (endless.readReg .r0)), (Instr.trapPutsp, InProgress.putsp (endless.readReg .r0))] ∧
    1 ≤ [(0x62#8 : Byte)].length :=
  ⟨rfl, fun a _ => endless_cells a, by simp, rfl, rfl, by simp, by simp⟩

theorem witness_InReadsOneByteAndEchoesIt :
    0xF023#16 &&& 0xF0FF#16 = 0xF023#16 ∧
    (atKbsr [.byte 0x37#8]).input = [] ++ .byte 0x37#8 :: [] ∧ outOk 2 (atKbsr [.byte 0x37#8]) ∧
    ((atKbsr [.byte 0x37#8]).setOutAnswers [.error]).outAnswers = .error :: [] ∧
    ((atKbsr [.byte 0x37#8]).setOutAnswers [.ok, .error]).outAnswers = .ok :: .error :: [] ∧
    (atKbsr [.error]).input = [] ++ .error :: [] :=
  ⟨by decide, rfl, (fun _ h => by cases h), rfl, rfl, rfl⟩

/-- "65535" and a newline; "65536" and a newline; a newline alone; "6" and a failed stream. -/
theorem witness_InU16ParsesTheDigitsBeforeTheNewline :
    0xF026#16 &&& 0xF0FF#16 = 0xF026#16 ∧
    (∀ e ∈ [0x36#8, 0x35#8, 0x35#8, 0x33#8, 0x35#8].map InEvent.byte, e ≠ .error ∧ e ≠ .byte 0x0A#8) ∧
    (digitsIn [0x36#8, 0x35#8, 0x35#8, 0x33#8, 0x35#8] ≠ [] ∧
      Nat.ofDigits 10 (digitsIn [0x36#8, 0x35#8, 0x35#8, 0x33#8, 0x35#8]).reverse ≤ 65535) ∧
    65535 < Nat.ofDigits 10 (digitsIn [0x36#8, 0x35#8, 0x35#8, 0x33#8, 0x36#8]).reverse ∧ digitsIn [] = [] ∧
    (atKbsr [.byte 0x36#8, .byte 0x0A#8]).input = [.byte 0x36#8] ++ .byte 0x0A#8 :: [] ∧
    (atKbsr [.byte 0x36#8, .error]).input = [.byte 0x36#8] ++ .error :: [] := by decide
theorem witness_OutU16WritesTheDecimalDigits :
    0xF027#16 &&& 0xF0FF#16 = 0xF027#16 ∧ outOk 6 (mid 0xF027#16) ∧
    ((mid 0xF027#16).setOutAnswers [.ok, .error]).outAnswers = List.replicate 1 PortAnswer.ok ++ .error :: [] :=
  ⟨by decide, (fun _ h => by cases h), rfl⟩
theorem witness_InU16ReadsBackWhatOutU16Writes :
    (State.reset.setInput ((decimalBytes 0xFFFF#16 ++ [0x0A#8]).map InEvent.byte ++ [.byte 0x39#8])).input
      = (decimalBytes 0xFFFF#16 ++ [0x0A#8]).map InEvent.byte ++ [.byte 0x39#8] := rfl

theorem witness_BlockingReadsWaitForAByte :
    (∀ e ∈ (atKbsr [.noByte]).input, e = .noByte) ∧
    ((atKbsr []).setBusy (some (.inU16 [2]))).runState = .running ∧ ((atKbsr []).setBusy (some (.inU16 [2]))).input = [] ∧
    ∃ ds, ((atKbsr []).setBusy (some (.inU16 [2]))).busy = some (.inU16 ds) := ⟨by decide, rfl, rfl, _, rfl⟩
theorem witness_WaitingForInputIsInvisible :
    Instr.trapInU16 ∈ [Instr.trapGetc, .trapIn, .trapInU16] ∧
    ∃ t, (withBytes (mid 0xF026#16) [0x32#8]).runState = .running ∧
      exec .trapInU16 (withBytes (mid 0xF026#16) [0x32#8]) = .next t ∧ t.busy ≠ none :=
  ⟨by decide, _, rfl, rfl, by decide⟩
theorem witness_ResumedCallsKeepTheTrapFootprint :
    ∃ t, ((broken 0xF020#16).setBusy (some .getc)).runState = .running ∧
      ((broken 0xF020#16).setBusy (some .getc)).busy ≠ none ∧
      step ((broken 0xF020#16).setBusy (some .getc)) = .next t := ⟨_, rfl, by decide, rfl⟩

/-- The longest image at x3000, an image of one byte, one that runs past the top, one with another origin. -/
theorem witness_LoaderPlacesTheImage :
    Config.pcStart.toNat + (List.replicate 53248 (0x0000#16 : Word)).length ≤ 65536 ∧ [(0x77#8 : Byte)].length ≤ 1 ∧
    [(0x30#8 : Byte)].length < 2 ∧
    65536 < (0xFFFF#16 : Word).toNat + [(0x1111#16 : Word), 0x2222#16].length ∧ (0x4000#16 : Word) ≠ Config.pcStart :=
  ⟨by rw [List.length_replicate]; decide, by decide, by decide, by decide, by decide⟩

end Tests
end Sys2Proof
end

section
/-! PROOFS. The family 00_scope.md: sign extension against the source's masking (R9). -/

namespace Sys2Proof
namespace Proofs

open Machine

/-- 00_scope.md R9 at every width. With the field's top bit 1, the two sides agree bit by bit: below bit
`n + 1` the shifted mask is clear, and from there up it is all ones, as the repeated top bit is. -/
theorem sext_eq_mask {n : Nat} (f : BitVec (n + 1)) :
    sext f =
      if f.getLsbD n = true then f.setWidth 16 ||| (0xFFFF#16 <<< (n + 1)) else f.setWidth 16 := by
  have hones : ∀ (j : Nat) (hj : j < 16), (0xFFFF#16)[j] = true := by decide
  have hmsb : f.msb = f.getLsbD n := f.msb_eq_getLsbD_last
  split
  case isTrue htop =>
    ext i hi
    rw [sext, BitVec.getElem_signExtend, hmsb, htop]
    by_cases hlow : i < n + 1
    · simp [hlow]
    · simp [hlow, hones]
  case isFalse htop =>
    exact BitVec.signExtend_eq_setWidth_of_msb_false (by simpa [hmsb] using htop)

/-- Settles O5: the four widths in use are instances of `sext_eq_mask`. -/
theorem signExtensionIsTheMaskForm : Obligations.SignExtensionIsTheMaskForm :=
  ⟨sext_eq_mask, sext_eq_mask, sext_eq_mask, sext_eq_mask⟩

end Proofs
end Sys2Proof
end

section
/-! PROOFS. The family 10_state.md: COND is read by BR alone and written through SetCC alone (R29). Each shared
operation carries COND through unread; the meanings are put together from those operations, and so are the proofs. -/

namespace Sys2Proof
namespace Machine

/-! ## Operations that carry COND through -/

/-- The state an operation leaves, whether it succeeded or raised. -/
def Res.state {α : Type} : Res α → State
  | .ok _ s | .fatal _ s => s

/-- The same answer, with the condition codes `c` in the state it leaves. -/
def Res.setCond {α : Type} (x : Res α) (c : Word) : Res α :=
  match x with
  | .ok a s => .ok a (s.setCond c)
  | .fatal r s => .fatal r (s.setCond c)

/-- The operation neither reads nor changes COND: from another COND it does the same and leaves that COND. -/
def CarriesCond {α : Type} (x : State → Res α) : Prop := ∀ s c, x (s.setCond c) = (x s).setCond c

/-- The case of `CarriesCond` in which the COND put in is the one the state has. -/
theorem CarriesCond.cond_eq {α : Type} {x : State → Res α} (hx : CarriesCond x) (s : State) :
    (x s).state.cond = s.cond := by
  have hself : x s = (x s).setCond s.cond := hx s s.cond
  rw [hself]
  cases x s <;> rfl

/-- The same of an update of the state. -/
theorem cond_eq_of_setCond_comm {g : State → State} (hg : ∀ s c, g (s.setCond c) = (g s).setCond c) (s : State) :
    (g s).cond = s.cond := by
  have hself : g s = (g s).setCond s.cond := hg s s.cond
  rw [hself]
  rfl

theorem memRead_carriesCond (a : Word) : CarriesCond (memRead a) := by
  intro s c
  by_cases ha : a = kbsrAddr
  · subst ha
    rcases hi : s.input with _ | ⟨_ | _ | _, rest⟩
    · rw [memRead_kbsr_empty hi, memRead_kbsr_empty (s := s.setCond c) hi]; rfl
    · rw [memRead_kbsr_byte hi, memRead_kbsr_byte (s := s.setCond c) hi]; rfl
    · rw [memRead_kbsr_noByte hi, memRead_kbsr_noByte (s := s.setCond c) hi]; rfl
    · rw [memRead_kbsr_error hi, memRead_kbsr_error (s := s.setCond c) hi]; rfl
  · rw [memRead_plain ha, memRead_plain ha]; rfl

theorem nextOutAnswer_setCond (s : State) (c : Word) :
    nextOutAnswer (s.setCond c) = ((nextOutAnswer s).1, (nextOutAnswer s).2.setCond c) := by
  unfold nextOutAnswer
  rw [State.setCond_outAnswers]
  cases s.outAnswers <;> rfl

theorem outWrite_carriesCond (b : Byte) : CarriesCond (outWrite b) := by
  intro s c
  unfold outWrite
  rw [nextOutAnswer_setCond]
  rcases nextOutAnswer s with ⟨_ | _, s1⟩ <;> rfl

theorem outFlush_carriesCond : CarriesCond outFlush := by
  intro s c
  unfold outFlush
  rw [nextOutAnswer_setCond]
  rcases nextOutAnswer s with ⟨_ | _, s1⟩ <;> rfl

theorem outWriteAll_carriesCond (bs : List Byte) : CarriesCond (outWriteAll bs) := by
  intro s c
  induction bs generalizing s with
  | nil => rfl
  | cons b rest ih =>
    simp only [outWriteAll, outWrite_carriesCond b s c]
    cases outWrite b s with
    | ok u s1 => exact ih s1
    | fatal r s1 => rfl

/-- The end of the string loop as an answer: the address to go on from, if the burst is used up, or the error. -/
def StringResult.toRes : StringResult → Res (Option Word)
  | .done s => .ok none s
  | .fatal r s => .fatal r s
  | .more a s => .ok (some a) s

theorem stringLoop_carriesCond (bytesOf : Word → List Byte) (fuel : Nat) (a : Word) :
    CarriesCond fun s => (stringLoop bytesOf fuel a s).toRes := by
  intro s c
  induction fuel generalizing a s with
  | zero => rfl
  | succ f ih =>
    simp only [stringLoop, memRead_carriesCond a s c]
    cases memRead a s with
    | fatal r s1 => rfl
    | ok w s1 =>
      by_cases hw : w = 0x0000#16
      · simp only [Res.setCond, hw, if_true]; rfl
      · simp only [Res.setCond, hw, if_false, outWriteAll_carriesCond (bytesOf w) s1 c]
        cases outWriteAll (bytesOf w) s1 with
        | fatal r s2 => rfl
        | ok u s2 => exact ih (a + 1#16) s2

/-- Which answer a blocking read takes is decided by the stream alone. -/
theorem inReadFrom_uniform (es : List InEvent) :
    (∃ b rest, ∀ s, inReadFrom es s = .byte b (s.setInput rest)) ∨
      (∃ rest, ∀ s, inReadFrom es s = .error (s.setInput rest)) ∨
      ∀ s, inReadFrom es s = .waits (s.setInput []) := by
  induction es with
  | nil => exact .inr (.inr fun _ => rfl)
  | cons e rest ih =>
    cases e with
    | byte b => exact .inl ⟨b, rest, fun _ => rfl⟩
    | error => exact .inr (.inl ⟨rest, fun _ => rfl⟩)
    | noByte => exact ih

/-! ## Meanings that use COND only through SetCC -/

/-- A meaning that does not read COND, and leaves it or sets it to the condition codes of a register of `ds`
(10_state.md R29). -/
structure CondOnlyBySetCC (ds : List Reg) (f : State → Outcome) : Prop where
  unread : ∀ s t c, f s = .next t → ∃ u, f (s.setCond c) = .next u ∧ u.setCond t.cond = t
  written : ∀ s t, f s = .next t → t.cond = s.cond ∨ ∃ d ∈ ds, t.cond = Claims.ccOf (t.readReg d)

namespace CondOnlyBySetCC

variable {ds : List Reg}

/-- A meaning that is one update which carries COND through. -/
theorem next {g : State → State} (hg : ∀ s c, g (s.setCond c) = (g s).setCond c) :
    CondOnlyBySetCC ds fun s => .next (g s) where
  unread s t c h := by
    cases h
    exact ⟨(g s).setCond c, congrArg _ (hg s c), rfl⟩
  written s t h := by
    cases h
    exact .inl (cond_eq_of_setCond_comm hg s)

/-- `x[d] <- v; SetCC(x[d])`. -/
theorem result (d : Reg) (v : Word) : CondOnlyBySetCC [d] fun s => .next (s.writeResult d v) where
  unread s t c h := by
    cases h
    exact ⟨_, rfl, rfl⟩
  written s t h := by
    cases h
    exact .inr ⟨d, List.mem_singleton_self d, rfl⟩

/-- A meaning run after an update which carries COND through. -/
theorem comp {f : State → Outcome} {g : State → State} (hf : CondOnlyBySetCC ds f)
    (hg : ∀ s c, g (s.setCond c) = (g s).setCond c) : CondOnlyBySetCC ds fun s => f (g s) where
  unread s t c h := by
    rw [hg s c]
    exact hf.unread (g s) t c h
  written s t h := by
    rw [← cond_eq_of_setCond_comm hg s]
    exact hf.written (g s) t h

/-- A meaning of an operand, at the value the operand has in the state, which does not depend on COND. -/
theorem operand {β : Type} {m : β → State → Outcome} {v : State → β} (hm : ∀ b, CondOnlyBySetCC ds (m b))
    (hv : ∀ s c, v (s.setCond c) = v s) : CondOnlyBySetCC ds fun s => m (v s) s where
  unread s t c h := by
    rw [hv s c]
    exact (hm (v s)).unread s t c h
  written s t h := (hm (v s)).written s t h

/-- An operation which carries COND through, and then a meaning. -/
theorem andThen {α : Type} {x : State → Res α} {k : α → State → Outcome} (hx : CarriesCond x)
    (hk : ∀ a, CondOnlyBySetCC ds (k a)) : CondOnlyBySetCC ds fun s => (x s).andThen k where
  unread s t c h := by
    rw [hx s c]
    cases hr : x s with
    | ok a s1 => exact (hk a).unread s1 t c (by simpa [hr] using h)
    | fatal r s1 =>
      obtain rfl : s1.raiseFatal r = t := by simpa [hr] using h
      exact ⟨_, rfl, rfl⟩
  written s t h := by
    rw [← hx.cond_eq s]
    cases hr : x s with
    | ok a s1 => exact (hk a).written s1 t (by simpa [hr] using h)
    | fatal r s1 =>
      obtain rfl : s1.raiseFatal r = t := by simpa [hr] using h
      exact .inl rfl

/-- A meaning that chooses how to go on by the input stream: each of its ways is enough. -/
theorem byInput {f : State → Outcome}
    (h : ∀ es, ∃ g, CondOnlyBySetCC ds g ∧ ∀ s, s.input = es → f s = g s) : CondOnlyBySetCC ds f where
  unread s t c ht := by
    obtain ⟨g, hg, hfg⟩ := h s.input
    rw [hfg s rfl] at ht
    rw [hfg (s.setCond c) rfl]
    exact hg.unread s t c ht
  written s t ht := by
    obtain ⟨g, hg, hfg⟩ := h s.input
    exact hg.written s t (hfg s rfl ▸ ht)

end CondOnlyBySetCC

/-! ## The shared meanings -/

section
variable {ds : List Reg}

theorem raiseFatal_condOnlyBySetCC (r : FatalReason) : CondOnlyBySetCC ds fun s => .next (s.raiseFatal r) :=
  .next fun _ _ => rfl

theorem loadInto_condOnlyBySetCC (d : Reg) (a : Word) : CondOnlyBySetCC [d] (loadInto d a) :=
  .andThen (memRead_carriesCond a) (.result d)

theorem flushAndFinish_condOnlyBySetCC : CondOnlyBySetCC ds flushAndFinish :=
  .andThen outFlush_carriesCond fun _ => .next fun _ _ => rfl

theorem onByte_condOnlyBySetCC (w : InProgress) {k : Byte → State → Outcome}
    (hk : ∀ b, CondOnlyBySetCC ds (k b)) : CondOnlyBySetCC ds (onByte w k) := by
  refine .byInput fun es => ?_
  rcases inReadFrom_uniform es with ⟨b, rest, h⟩ | ⟨rest, h⟩ | h
  · exact ⟨_, (hk b).comp (g := (·.setInput rest)) fun _ _ => rfl, fun s hs => by simp [onByte, inRead, hs, h]⟩
  · exact ⟨_, (raiseFatal_condOnlyBySetCC .io).comp (g := (·.setInput rest)) fun _ _ => rfl,
      fun s hs => by simp [onByte, inRead, hs, h]⟩
  · exact ⟨_, .next (g := fun s => (s.setInput []).setBusy (some w)) fun _ _ => rfl,
      fun s hs => by simp [onByte, inRead, hs, h]⟩

/-- How a string call goes on after its loop. -/
def afterString (resume : Word → InProgress) : Option Word → State → Outcome
  | none, s => flushAndFinish s
  | some a, s => .next (s.setBusy (some (resume a)))

theorem continueString_eq_andThen (bytesOf : Word → List Byte) (resume : Word → InProgress) (a : Word) (s : State) :
    continueString bytesOf resume a s =
      (stringLoop bytesOf Config.stringBurst a s).toRes.andThen (afterString resume) := by
  unfold continueString
  cases stringLoop bytesOf Config.stringBurst a s <;> rfl

theorem continueString_condOnlyBySetCC (bytesOf : Word → List Byte) (resume : Word → InProgress) (a : Word) :
    CondOnlyBySetCC ds (continueString bytesOf resume a) := by
  rw [funext (continueString_eq_andThen bytesOf resume a)]
  refine .andThen (stringLoop_carriesCond bytesOf _ a) fun next => ?_
  cases next with
  | none => exact flushAndFinish_condOnlyBySetCC
  | some b => exact .next fun _ _ => rfl

theorem parseInto_condOnlyBySetCC (digits : List Nat) : CondOnlyBySetCC ds (parseInto digits) := by
  unfold parseInto
  split
  · exact raiseFatal_condOnlyBySetCC .parse
  · split
    · exact raiseFatal_condOnlyBySetCC .parse
    · exact .next fun _ _ => rfl

theorem continueInU16_condOnlyBySetCC (digits : List Nat) : CondOnlyBySetCC ds (continueInU16 digits) := by
  refine .byInput fun es => ?_
  cases h : digitLoop es digits with
  | done ds1 rest =>
    exact ⟨_, (parseInto_condOnlyBySetCC ds1).comp (g := (·.setInput rest)) fun _ _ => rfl,
      fun s hs => by simp [continueInU16, hs, h]⟩
  | error rest =>
    exact ⟨_, (raiseFatal_condOnlyBySetCC .io).comp (g := (·.setInput rest)) fun _ _ => rfl,
      fun s hs => by simp [continueInU16, hs, h]⟩
  | waits ds1 =>
    exact ⟨_, .next (g := fun s => (s.setInput []).setBusy (some (.inU16 ds1))) fun _ _ => rfl,
      fun s hs => by simp [continueInU16, hs, h]⟩

theorem continueGetc_condOnlyBySetCC : CondOnlyBySetCC ds continueGetc :=
  onByte_condOnlyBySetCC .getc fun _ => .next fun _ _ => rfl

theorem continueIn_condOnlyBySetCC : CondOnlyBySetCC ds continueIn :=
  onByte_condOnlyBySetCC .inp fun b =>
    .andThen (fun s => outWrite_carriesCond b (s.writeReg .r0 (zext8 b))) fun _ => flushAndFinish_condOnlyBySetCC

end

/-! ## The instructions -/

/-- Every instruction but BR uses COND only through SetCC, on the register it writes, and only if R28 lists it. -/
theorem exec_condOnlyBySetCC (i : Instr) (hbr : ∀ n z p o, i ≠ .br n z p o) :
    CondOnlyBySetCC (if setsCond i then writesRegs i else []) (exec i) := by
  have hlink : ∀ s c, (State.setCond s c).link = s.link.setCond c := fun _ _ => rfl
  cases i with
  | br n z p o => exact absurd rfl (hbr n z p o)
  | addReg d a b => exact .operand (v := fun s => s.readReg a + s.readReg b) (.result d) fun _ _ => rfl
  | addImm d a imm => exact .operand (v := fun s => s.readReg a + sext imm) (.result d) fun _ _ => rfl
  | andReg d a b => exact .operand (v := fun s => s.readReg a &&& s.readReg b) (.result d) fun _ _ => rfl
  | andImm d a imm => exact .operand (v := fun s => s.readReg a &&& sext imm) (.result d) fun _ _ => rfl
  | notReg d a => exact .operand (v := fun s => ~~~ s.readReg a) (.result d) fun _ _ => rfl
  | lea d off => exact .operand (v := pcRelative off) (.result d) fun _ _ => rfl
  | ld d off => exact .operand (v := pcRelative off) (loadInto_condOnlyBySetCC d) fun _ _ => rfl
  | ldr d b off => exact .operand (v := baseOffset b off) (loadInto_condOnlyBySetCC d) fun _ _ => rfl
  | ldi d off =>
    exact .operand (v := pcRelative off)
      (fun a => .andThen (memRead_carriesCond a) (loadInto_condOnlyBySetCC d)) fun _ _ => rfl
  | sti r off =>
    exact .operand (v := pcRelative off)
      (fun a => .andThen (memRead_carriesCond a) fun p =>
        .next (g := fun s => s.memWrite p (s.readReg r)) fun _ _ => rfl) fun _ _ => rfl
  | st _ _ | str _ _ _ | jmp _ | jsr _ | jsrr _ | trapHalt => exact .next fun _ _ => rfl
  | trapGetc => exact continueGetc_condOnlyBySetCC.comp hlink
  | trapIn => exact continueIn_condOnlyBySetCC.comp hlink
  | trapInU16 => exact (continueInU16_condOnlyBySetCC []).comp hlink
  | trapPuts =>
    exact (CondOnlyBySetCC.operand (v := (·.readReg .r0)) (continueString_condOnlyBySetCC putsBytes .puts)
      fun _ _ => rfl).comp hlink
  | trapPutsp =>
    exact (CondOnlyBySetCC.operand (v := (·.readReg .r0)) (continueString_condOnlyBySetCC putspBytes .putsp)
      fun _ _ => rfl).comp hlink
  | trapOut =>
    exact (CondOnlyBySetCC.operand (v := fun s => lowByte (s.readReg .r0))
      (fun b => .andThen (outWrite_carriesCond b) fun _ => flushAndFinish_condOnlyBySetCC) fun _ _ => rfl).comp hlink
  | trapOutU16 =>
    exact (CondOnlyBySetCC.operand (v := fun s => decimalBytes (s.readReg .r0))
      (fun bs => .andThen (outWriteAll_carriesCond bs) fun _ => flushAndFinish_condOnlyBySetCC)
      fun _ _ => rfl).comp hlink
  | rtiReserved _ | unusedReserved _ | trapUnsupported _ => exact raiseFatal_condOnlyBySetCC .decode

/-- BR reads COND and leaves it (44_control.md R115). -/
theorem execBr_cond {n z p : Bool} {o : BitVec 9} {s t : State} (h : execBr n z p o s = .next t) :
    t.cond = s.cond := by
  cases h
  split <;> rfl

/-- No instruction writes COND but through SetCC, on a register it writes, and only if R28 lists it. -/
theorem exec_cond {i : Instr} {s t : State} (h : exec i s = .next t) :
    t.cond = s.cond ∨ setsCond i = true ∧ ∃ d ∈ writesRegs i, t.cond = Claims.ccOf (t.readReg d) := by
  by_cases hbr : ∃ n z p o, i = .br n z p o
  · obtain ⟨n, z, p, o, rfl⟩ := hbr
    exact .inl (execBr_cond h)
  · push Not at hbr
    refine ((exec_condOnlyBySetCC i hbr).written s t h).imp_right fun ⟨d, hd, hc⟩ => ?_
    split at hd
    case isTrue hset => exact ⟨hset, d, hd, hc⟩
    case isFalse => cases hd

end Machine

namespace Proofs

open Machine

/-- Settles O22: the two halves of `exec_condOnlyBySetCC`, with BR added to the second by `exec_cond`. -/
theorem condIsConsultedOnlyByBranches : Obligations.CondIsConsultedOnlyByBranches :=
  ⟨fun i s t c hbr h => (exec_condOnlyBySetCC i hbr).unread s t c h, fun _ _ _ h => (exec_cond h).imp_right And.right⟩

end Proofs
end Sys2Proof
end

section
/-! PROOFS. The family 40_engine.md: one cycle of a running machine with no trap in progress (R94, R96, R99). -/

namespace Sys2Proof
namespace Machine

/-- A cycle with no trap in progress is the fetch, then the execute phase of the decoded word. -/
theorem step_idle {s : State} (hr : s.runState = .running) (hb : s.busy = none) :
    step s = (fetch s).andThen fun w s1 => exec (decode w) s1 := by
  simp [step, hr, hb]

/-- The increment comes after a read that succeeds. -/
theorem fetch_of_memRead_ok {s s1 : State} {w : Word} (h : memRead s.pc s = .ok w s1) :
    fetch s = .ok w (s1.setPc (s1.pc + 1#16)) := by
  simp [fetch, h]

/-- A read that fails ends the fetch before the increment. -/
theorem fetch_of_memRead_fatal {s s1 : State} {r : FatalReason} (h : memRead s.pc s = .fatal r s1) :
    fetch s = .fatal r s1 := by
  simp [fetch, h]

/-- After a read that succeeds, the step is the execute phase of the decoded word, with pc advanced. -/
theorem step_of_memRead_ok {s s1 : State} {w : Word} (hr : s.runState = .running) (hb : s.busy = none)
    (h : memRead s.pc s = .ok w s1) : step s = exec (decode w) (s1.setPc (s1.pc + 1#16)) := by
  rw [step_idle hr hb, fetch_of_memRead_ok h, Res.andThen_ok]

/-- A read that fails makes the step its fatal error. -/
theorem step_of_memRead_fatal {s s1 : State} {r : FatalReason} (hr : s.runState = .running) (hb : s.busy = none)
    (h : memRead s.pc s = .fatal r s1) : step s = .next (s1.raiseFatal r) := by
  rw [step_idle hr hb, fetch_of_memRead_fatal h, Res.andThen_fatal]

end Machine

namespace Proofs

open Machine

/-- Settles O6, by what the read at pc answers: a lookup away from KBSR_ADDR (`step_plain`), a word, or an error,
which only the poll at KBSR_ADDR raises (`memRead_fatal`). -/
theorem stepRunsTheDecodedInstruction : Obligations.StepRunsTheDecodedInstruction := by
  intro s hr hb
  refine ⟨step_plain hr hb, fun w s1 hread => step_of_memRead_ok hr hb hread, fun r s1 hread => ?_⟩
  obtain ⟨hpc, rfl, -⟩ := memRead_fatal hread
  exact ⟨rfl, hpc, _, step_of_memRead_fatal hr hb hread, State.raiseFatal_runState s1 .io⟩

end Proofs
end Sys2Proof
end

section
/-! PROOFS. The family 41_operate.md: ADD, AND and NOT (R103 to R107). Each obligation is the decoding law of its row and
what executing the row answers, in the claims' own words. The claims' `regAt` and `extractLsb'` are by definition the
decoder's `Word.reg` and `Word.field`, so the laws of Laws/Decode apply as they stand. -/

namespace Sys2Proof
namespace Machine

open Claims

/-! ## Writing a result -/

/-- SetCC computes the condition codes of 10_state.md R26 and R27. -/
theorem condOf_eq_ccOf (v : Word) : condOf v = ccOf v := rfl

/-- Writing a result changes DR and COND, and nothing else. The codes are those of the value, since DR reads back as the
value even where it is a source too. -/
theorem State.writeResult_eq_withResult (s : State) (d : Reg) (v : Word) : s.writeResult d v = withResult s d v := by
  rw [State.writeResult_eq, condOf_eq_ccOf]
  rfl

/-! ## The execute phase of each operate row -/

theorem exec_addReg (d a b : Reg) (s : State) :
    exec (.addReg d a b) s = .next (withResult s d (s.readReg a + s.readReg b)) :=
  congrArg _ (s.writeResult_eq_withResult d _)

theorem exec_addImm (d a : Reg) (imm : BitVec 5) (s : State) :
    exec (.addImm d a imm) s = .next (withResult s d (s.readReg a + imm.signExtend 16)) :=
  congrArg _ (s.writeResult_eq_withResult d _)

theorem exec_andReg (d a b : Reg) (s : State) :
    exec (.andReg d a b) s = .next (withResult s d (s.readReg a &&& s.readReg b)) :=
  congrArg _ (s.writeResult_eq_withResult d _)

theorem exec_andImm (d a : Reg) (imm : BitVec 5) (s : State) :
    exec (.andImm d a imm) s = .next (withResult s d (s.readReg a &&& imm.signExtend 16)) :=
  congrArg _ (s.writeResult_eq_withResult d _)

theorem exec_notReg (d a : Reg) (s : State) : exec (.notReg d a) s = .next (withResult s d (~~~ s.readReg a)) :=
  congrArg _ (s.writeResult_eq_withResult d _)

end Machine

namespace Proofs

open Machine

/-- Settles O26: the row of opcode x1 with bit 5 clear (`decode_addReg`), and its meaning (`exec_addReg`). -/
theorem addRegisterForm : Obligations.AddRegisterForm :=
  fun _ s h => ⟨decode_addReg h, exec_addReg _ _ _ s⟩

/-- Settles O27: the row of opcode x1 with bit 5 set (`decode_addImm`), and its meaning (`exec_addImm`). -/
theorem addImmediateForm : Obligations.AddImmediateForm :=
  fun _ s h => ⟨decode_addImm h, exec_addImm _ _ _ s⟩

/-- Settles O28: the row of opcode x5 with bit 5 clear (`decode_andReg`), and its meaning (`exec_andReg`). -/
theorem andRegisterForm : Obligations.AndRegisterForm :=
  fun _ s h => ⟨decode_andReg h, exec_andReg _ _ _ s⟩

/-- Settles O29: the row of opcode x5 with bit 5 set (`decode_andImm`), and its meaning (`exec_andImm`). -/
theorem andImmediateForm : Obligations.AndImmediateForm :=
  fun _ s h => ⟨decode_andImm h, exec_andImm _ _ _ s⟩

/-- Settles O30: the row of opcode x9, its low six bits ignored (`decode_notReg`), and its meaning (`exec_notReg`). -/
theorem notComplementsItsSource : Obligations.NotComplementsItsSource :=
  fun _ s h => ⟨decode_notReg h, exec_notReg _ _ s⟩

end Proofs
end Sys2Proof
end

section
/-! PROOFS. The family 42_load.md: LD, LDI, LDR and LEA (R108 to R111). The three loads end in one read into DR
(`loadInto`), whose three cases are proved once. The claims' `regAt` and `extractLsb'` are by definition the decoder's
`Word.reg` and `Word.field`. -/

namespace Sys2Proof
namespace Machine

open Claims

/-- Raising an error faults the run and ends the call, and nothing else. -/
theorem State.raiseFatal_eq_faulted (s : State) (r : FatalReason) : s.raiseFatal r = faulted s r := rfl

/-! ## A read into DR -/

section
variable {d : Reg} {a v : Word} {s t : State} {r : FatalReason}

/-- A read that succeeds: DR takes the value, in the state the read leaves. -/
theorem loadInto_of_memRead_ok (h : memRead a s = .ok v t) : loadInto d a s = .next (withResult t d v) := by
  rw [loadInto, h, Res.andThen_ok, State.writeResult_eq_withResult]

/-- Away from KBSR_ADDR the read is a lookup, so only DR and COND change. -/
theorem loadInto_plain (h : a ≠ kbsrAddr) : loadInto d a s = .next (withResult s d (s.cell a)) :=
  loadInto_of_memRead_ok (memRead_plain h s)

/-- A read that fails raises its error before DR is written; the error is the poll's, at KBSR_ADDR. -/
theorem loadInto_of_memRead_fatal (h : memRead a s = .fatal r t) :
    loadInto d a s = .next (faulted t r) ∧ r = .io ∧ a = kbsrAddr := by
  obtain ⟨ha, hr, -⟩ := memRead_fatal h
  refine ⟨?_, hr, ha⟩
  rw [loadInto, h, Res.andThen_fatal, State.raiseFatal_eq_faulted]

end

/-! ## The execute phase of each row -/

theorem exec_ld (d : Reg) (off : BitVec 9) (s : State) :
    exec (.ld d off) s = loadInto d (s.pc + off.signExtend 16) s := rfl

theorem exec_ldi (d : Reg) (off : BitVec 9) (s : State) :
    exec (.ldi d off) s = (memRead (s.pc + off.signExtend 16) s).andThen (loadInto d) := rfl

theorem exec_ldr (d b : Reg) (off : BitVec 6) (s : State) :
    exec (.ldr d b off) s = loadInto d (s.readReg b + off.signExtend 16) s := rfl

theorem exec_lea (d : Reg) (off : BitVec 9) (s : State) :
    exec (.lea d off) s = .next (withResult s d (s.pc + off.signExtend 16)) :=
  congrArg _ (s.writeResult_eq_withResult d _)

section
variable {d : Reg} {off : BitVec 9} {p : Word} {s s1 : State}

/-- LDI whose pointer is read goes on as a load through the pointer, in the state the first read leaves. -/
theorem exec_ldi_of_memRead_ok (h : memRead (s.pc + off.signExtend 16) s = .ok p s1) :
    exec (.ldi d off) s = loadInto d p s1 := by
  rw [exec_ldi, h, Res.andThen_ok]

/-- LDI whose pointer read fails ends there. -/
theorem exec_ldi_of_memRead_fatal {r : FatalReason} (h : memRead (s.pc + off.signExtend 16) s = .fatal r s1) :
    exec (.ldi d off) s = .next (faulted s1 r) := by
  rw [exec_ldi, h, Res.andThen_fatal, State.raiseFatal_eq_faulted]

end

end Machine

namespace Proofs

open Machine

/-- Settles O32: the row of opcode x2 (`decode_ld`), and the three cases of a read into DR at its address. -/
theorem ldLoadsTheCellAtPcPlusOffset : Obligations.LdLoadsTheCellAtPcPlusOffset := by
  rintro w s ea h rfl
  rw [exec_ld]
  exact ⟨decode_ld h, loadInto_plain, fun _ _ => loadInto_of_memRead_ok, fun _ _ => loadInto_of_memRead_fatal⟩

/-- Settles O33: the row of opcode xA (`decode_ldi`). Where the pointer is read, the rest is a read into DR at the
pointer; where it is not, the error is that of the first read. -/
theorem ldiLoadsThroughThePointer : Obligations.LdiLoadsThroughThePointer := by
  rintro w s ea h rfl
  refine ⟨decode_ldi h, fun hea hp => ?_, fun p s1 v s2 hptr hval => ?_, fun r s1 hptr => ?_,
    fun p s1 r s2 hptr hval => ?_⟩
  · rw [exec_ldi_of_memRead_ok (memRead_plain hea s), loadInto_plain hp]
  · rw [exec_ldi_of_memRead_ok hptr, loadInto_of_memRead_ok hval]
  · obtain ⟨hea, hr, -⟩ := memRead_fatal hptr
    exact ⟨exec_ldi_of_memRead_fatal hptr, hr, hea⟩
  · rw [exec_ldi_of_memRead_ok hptr]
    exact loadInto_of_memRead_fatal hval

/-- Settles O34: the row of opcode x6 (`decode_ldr`), and the three cases of a read into DR at its address. -/
theorem ldrLoadsTheCellAtBasePlusOffset : Obligations.LdrLoadsTheCellAtBasePlusOffset := by
  rintro w s ea h rfl
  rw [exec_ldr]
  exact ⟨decode_ldr h, loadInto_plain, fun _ _ => loadInto_of_memRead_ok, fun _ _ => loadInto_of_memRead_fatal⟩

/-- Settles O35: the row of opcode xE (`decode_lea`), and its meaning (`exec_lea`). -/
theorem leaWritesTheAddress : Obligations.LeaWritesTheAddress :=
  fun _ s h => ⟨decode_lea h, exec_lea _ _ s⟩

end Proofs
end Sys2Proof
end

section
/-! PROOFS. The family 43_store.md: ST, STI and STR (R112 to R114). Each store ends in one plain write of a cell, whose
effect and frame are proved once. The claims' `regAt` and `extractLsb'` are by definition the decoder's `Word.reg` and
`Word.field`. -/

namespace Sys2Proof
namespace Machine

open Claims

/-! ## A plain write -/

/-- A write changes memory alone (20_memory.md R51): with the old memory put back, the state is the old one. -/
theorem State.memWrite_setMem_self (s : State) (a v : Word) : (s.memWrite a v).setMem s.mem = s := rfl

/-- An outcome that is a plain write: the cell written holds the value, and every other cell and everything else is as
before. -/
theorem next_memWrite {x : Outcome} {s : State} {p v : Word} (h : x = .next (s.memWrite p v)) :
    ∃ t, x = .next t ∧ (∀ a, t.cell a = if a = p then v else s.cell a) ∧ { t with mem := s.mem } = s :=
  ⟨_, h, fun a => s.cell_memWrite p a v, s.memWrite_setMem_self p v⟩

/-! ## The execute phase of each row -/

theorem exec_st (r : Reg) (off : BitVec 9) (s : State) :
    exec (.st r off) s = .next (s.memWrite (s.pc + off.signExtend 16) (s.readReg r)) := rfl

theorem exec_sti (r : Reg) (off : BitVec 9) (s : State) :
    exec (.sti r off) s = (memRead (s.pc + off.signExtend 16) s).andThen fun p s1 =>
      .next (s1.memWrite p (s1.readReg r)) := rfl

theorem exec_str (r b : Reg) (off : BitVec 6) (s : State) :
    exec (.str r b off) s = .next (s.memWrite (s.readReg b + off.signExtend 16) (s.readReg r)) := rfl

section
variable {r : Reg} {off : BitVec 9} {p : Word} {s s1 : State}

/-- STI whose pointer is read writes the register through the pointer, in the state the read leaves; the read has not
changed the register. -/
theorem exec_sti_of_memRead_ok (h : memRead (s.pc + off.signExtend 16) s = .ok p s1) :
    exec (.sti r off) s = .next (s1.memWrite p (s.readReg r)) := by
  obtain ⟨hframe, -, -⟩ := memRead_ok h
  rw [exec_sti, h, Res.andThen_ok, State.readReg_congr hframe.regs]

/-- STI whose pointer read fails ends there, with no cell written. -/
theorem exec_sti_of_memRead_fatal {e : FatalReason} (h : memRead (s.pc + off.signExtend 16) s = .fatal e s1) :
    exec (.sti r off) s = .next (faulted s1 e) := by
  rw [exec_sti, h, Res.andThen_fatal, State.raiseFatal_eq_faulted]

end

end Machine

namespace Proofs

open Machine

/-- Settles O36: the row of opcode x3 (`decode_st`), and a plain write at its address (`exec_st`). -/
theorem stWritesTheCellAtPcPlusOffset : Obligations.StWritesTheCellAtPcPlusOffset := by
  rintro w s ea h rfl
  exact ⟨decode_st h, next_memWrite (exec_st _ _ s)⟩

/-- Settles O37: the row of opcode xB (`decode_sti`). Where the pointer is read, the rest is a plain write through it;
away from KBSR_ADDR that read is a lookup (`memRead_plain`). An error is that of the read, so it ends STI before the
write. -/
theorem stiWritesThroughThePointer : Obligations.StiWritesThroughThePointer := by
  rintro w s ea h rfl
  refine ⟨decode_sti h, fun hea => ?_, fun p s1 hptr => ?_, fun r s1 hptr => ?_⟩
  · exact next_memWrite (exec_sti_of_memRead_ok (memRead_plain hea s))
  · exact next_memWrite (exec_sti_of_memRead_ok hptr)
  · obtain ⟨hea, hr, -⟩ := memRead_fatal hptr
    exact ⟨exec_sti_of_memRead_fatal hptr, hr, hea⟩

/-- Settles O38: the row of opcode x7 (`decode_str`), and a plain write at its address (`exec_str`). -/
theorem strWritesTheCellAtBasePlusOffset : Obligations.StrWritesTheCellAtBasePlusOffset := by
  rintro w s ea h rfl
  exact ⟨decode_str h, next_memWrite (exec_str _ _ _ s)⟩

end Proofs
end Sys2Proof
end

section
/-! PROOFS. The family 44_control.md: BR, JMP and JSR (R115 to R117). BR's mask is the field `w[11:9]`, so a COND with one
flag set tests the one bit of the word at that flag's place. The claims' `regAt` and `extractLsb'` are by definition the
decoder's `Word.reg` and `Word.field`. -/

namespace Sys2Proof
namespace Machine

/-! ## The branch test -/

/-- BR's mask, built from its three bits, is the field `w[11:9]` (30_encoding.md R70). -/
theorem branchMask_eq_field (w : Word) :
    branchMask (w.getLsbD 11) (w.getLsbD 10) (w.getLsbD 9) = (w.field 9 3).setWidth 16 := by
  refine congrArg (BitVec.setWidth 16) (BitVec.eq_of_getLsbD_eq fun i hi => ?_)
  rw [BitVec.getLsbD_append, BitVec.getLsbD_append]
  interval_cases i <;> simp [Word.field]

/-- Masking the field `w[11:9]` with the flag of place `i` tests bit `9 + i` of the word. -/
theorem field_and_twoPow_ne_zero_iff (w : Word) {i : Nat} (hi : i < 3) :
    (w.field 9 3).setWidth 16 &&& BitVec.twoPow 16 i ≠ 0x0000#16 ↔ w.getLsbD (9 + i) = true := by
  have hbit : ((w.field 9 3).setWidth 16).getLsbD i = w.getLsbD (9 + i) := by
    simp [Word.field, hi, hi.trans (by decide : 3 < 16)]
  have hflag : BitVec.twoPow 16 i ≠ 0x0000#16 := by interval_cases i <;> decide
  rw [BitVec.and_twoPow, hbit]
  split
  case isTrue hw => exact iff_of_true hflag hw
  case isFalse hw => exact iff_of_false (not_not_intro rfl) hw

/-! ## The execute phase of each row -/

theorem exec_br (n z p : Bool) (off : BitVec 9) (s : State) :
    exec (.br n z p off) s = .next
      (if branchMask n z p &&& s.cond ≠ 0x0000#16 then { s with pc := s.pc + off.signExtend 16 } else s) := by
  simp only [← bne_iff_ne]
  rfl

theorem exec_jmp (b : Reg) (s : State) : exec (.jmp b) s = .next { s with pc := s.readReg b } := rfl

theorem exec_jsr (off : BitVec 11) (s : State) :
    exec (.jsr off) s = .next { s with regs := s.regs.write .r7 s.pc, pc := s.pc + off.signExtend 16 } := rfl

end Machine

namespace Proofs

open Machine

/-- Settles O41: the row of opcode x0 (`decode_br`), its meaning (`exec_br`) with the mask as a field of the word, and
N, Z and P as the flags of places 2, 1 and 0. -/
theorem brTestsTheFlagItsMaskNames : Obligations.BrTestsTheFlagItsMaskNames := by
  intro w s h
  refine ⟨decode_br h, ?_, fun hN => ?_, fun hZ => ?_, fun hP => ?_⟩
  · rw [exec_br, branchMask_eq_field]
    rfl
  · rw [hN]
    exact field_and_twoPow_ne_zero_iff w (i := 2) (by decide)
  · rw [hZ]
    exact field_and_twoPow_ne_zero_iff w (i := 1) (by decide)
  · rw [hP]
    exact field_and_twoPow_ne_zero_iff w (i := 0) (by decide)

/-- Settles O42: the row of opcode xC (`decode_jmp`), and its meaning (`exec_jmp`). -/
theorem jmpGoesToItsBase : Obligations.JmpGoesToItsBase :=
  fun _ s h => ⟨decode_jmp h, exec_jmp _ s⟩

/-- Settles O43: the row of opcode x4 with bit 11 set (`decode_jsr`), and its meaning (`exec_jsr`), whose target is
computed from the old pc. -/
theorem jsrLinksAndJumps : Obligations.JsrLinksAndJumps :=
  fun _ s h => ⟨decode_jsr h, exec_jsr _ s⟩

end Proofs
end Sys2Proof
end

section
/-! PROOFS. The family 60_exceptions.md: which words raise Fatal(DECODE) (R135). What an execute phase can do to the halt
state is said once for all instructions (`exec_endsIn`); which words decode to an invalid row is the decoder's half
(`decode_valid_eq_false_iff`). -/

namespace Sys2Proof

/-! ## The words of the invalid rows -/

theorem Opcode.ofCode_eq_iff {c : BitVec 4} {o : Opcode} : Opcode.ofCode c = o ↔ c = o.code :=
  ⟨fun h => h ▸ (Opcode.code_ofCode c).symm, fun h => h ▸ Opcode.ofCode_code o⟩

/-- A TRAP word is invalid exactly if its vector is not in the table (30_encoding.md R87). -/
theorem decodeTrap_valid_eq_false_iff (t : TrapVectors) (v : Byte) :
    (decodeTrap t v).valid = false ↔ v ∉ vectorList t := by
  simp only [decodeTrap, apply_ite Instr.valid]
  simp [Instr.valid, Instr.decodeError, vectorList]

/-- The words of the invalid rows, by opcode and vector (30_encoding.md R86, R87). -/
theorem decode_valid_eq_false_iff (w : Word) :
    (decode w).valid = false ↔
      w.field 12 4 = Opcode.code .rti ∨ w.field 12 4 = Opcode.code .unused ∨
        (w.field 12 4 = Opcode.code .trap ∧ w.field 0 8 ∉ vectorList trapVectors) := by
  simp only [← Opcode.ofCode_eq_iff, decode, decodeWith]
  cases Opcode.ofCode (w.field 12 4) with
  | trap => simpa using decodeTrap_valid_eq_false_iff trapVectors (w.field 0 8)
  | add | and => cases w.getLsbD 5 <;> simp [Instr.valid, Instr.decodeError]
  | jsr => cases w.getLsbD 11 <;> simp [Instr.valid, Instr.decodeError]
  | _ => simp [Instr.valid, Instr.decodeError]

namespace Machine

/-! ## The halt state after an execute phase -/

/-- If the outcome is a next state, its halt state is `q` or one of `l`. -/
def EndsIn (q : RunState) (l : List RunState) (o : Outcome) : Prop :=
  ∀ t, o = .next t → t.runState = q ∨ t.runState ∈ l

/-- The operation keeps the halt state `q`, or fails with Fatal(IO). -/
def Res.KeepsOrIo {α : Type} (q : RunState) : Res α → Prop
  | .ok _ s => s.runState = q
  | .fatal r _ => r = .io

section
variable {q : RunState} {l : List RunState}

theorem EndsIn.keep {s : State} (h : s.runState = q) : EndsIn q l (.next s) := by
  rintro t ⟨⟩
  exact .inl h

theorem EndsIn.reach {s : State} (h : s.runState ∈ l) : EndsIn q l (.next s) := by
  rintro t ⟨⟩
  exact .inr h

theorem EndsIn.andThen {α : Type} {x : Res α} {k : α → State → Outcome} (hx : x.KeepsOrIo q)
    (hk : ∀ a s, s.runState = q → EndsIn q [.faulted .io] (k a s)) : EndsIn q [.faulted .io] (x.andThen k) := by
  cases x with
  | ok a s => exact hk a s hx
  | fatal r s =>
    obtain rfl : r = .io := hx
    exact .reach (List.mem_singleton_self _)

end

theorem memRead_keepsOrIo (a : Word) (s : State) : (memRead a s).KeepsOrIo s.runState := by
  cases h : memRead a s with
  | ok v s1 => exact (memRead_ok h).1.runState
  | fatal r s1 => exact (memRead_fatal h).2.1

theorem outWriteAll_keepsOrIo (bs : List Byte) (s : State) : (outWriteAll bs s).KeepsOrIo s.runState := by
  cases h : outWriteAll bs s with
  | ok u s1 => exact (outWriteAll_ok h).1.runState
  | fatal r s1 => exact (outWriteAll_fatal h).2.2

theorem outWrite_keepsOrIo (b : Byte) (s : State) : (outWrite b s).KeepsOrIo s.runState := by
  cases h : outWrite b s with
  | ok u s1 => exact (outWrite_ok h).1.runState
  | fatal r s1 =>
    obtain ⟨_, _, hr, _⟩ := outWrite_fatal h
    exact hr

theorem stringLoop_keepsOrIo (bytesOf : Word → List Byte) (fuel : Nat) (a : Word) (s : State) :
    (stringLoop bytesOf fuel a s).toRes.KeepsOrIo s.runState := by
  obtain ⟨hframe, hio⟩ := stringLoop_frame bytesOf fuel a s
  cases h : stringLoop bytesOf fuel a s with
  | done t | more b t => exact (h ▸ hframe).runState
  | fatal r t => exact hio r t h

/-! ## The shared meanings -/

theorem loadInto_endsIn (d : Reg) (a : Word) (s : State) : EndsIn s.runState [.faulted .io] (loadInto d a s) :=
  .andThen (memRead_keepsOrIo a s) fun _ _ hq => .keep hq

theorem flushAndFinish_endsIn (s : State) : EndsIn s.runState [.faulted .io] (flushAndFinish s) := by
  intro t h
  rcases (flushAndFinish_next h).2 with ⟨hkeep, -⟩ | ⟨hio, -⟩
  · exact .inl hkeep
  · exact .inr (List.mem_singleton.mpr hio)

theorem onByte_endsIn (w : InProgress) {k : Byte → State → Outcome}
    (hk : ∀ b s, EndsIn s.runState [.faulted .io] (k b s)) (s : State) :
    EndsIn s.runState [.faulted .io] (onByte w k s) := by
  rcases onByte_cases w k s with ⟨b, rest, h⟩ | ⟨rest, h⟩ | h <;> rw [h]
  · exact hk b (s.setInput rest)
  · exact .reach (List.mem_singleton_self _)
  · exact .keep rfl

theorem continueString_endsIn (bytesOf : Word → List Byte) (resume : Word → InProgress) (a : Word) (s : State) :
    EndsIn s.runState [.faulted .io] (continueString bytesOf resume a s) := by
  rw [continueString_eq_andThen]
  refine .andThen (stringLoop_keepsOrIo bytesOf _ a s) fun next s1 hq => ?_
  cases next with
  | none => exact hq ▸ flushAndFinish_endsIn s1
  | some b => exact .keep hq

theorem continueGetc_endsIn (s : State) : EndsIn s.runState [.faulted .io] (continueGetc s) :=
  onByte_endsIn .getc (k := fun b s1 => .next (s1.writeReg .r0 (zext8 b)).trapDone)
    (fun _ _ => .keep rfl) s

theorem continueIn_endsIn (s : State) : EndsIn s.runState [.faulted .io] (continueIn s) :=
  onByte_endsIn .inp (fun b s1 => .andThen (outWrite_keepsOrIo b (s1.writeReg .r0 (zext8 b)))
    fun _ s2 hq => hq ▸ flushAndFinish_endsIn s2) s

theorem parseInto_endsIn (ds : List Nat) (s : State) :
    EndsIn s.runState [.faulted .io, .faulted .parse] (parseInto ds s) := by
  have hparse : EndsIn s.runState [.faulted .io, .faulted .parse] (.next (s.raiseFatal .parse)) := .reach (by simp)
  unfold parseInto
  split
  · exact hparse
  · split
    · exact hparse
    · exact .keep rfl

theorem continueInU16_endsIn (ds : List Nat) (s : State) :
    EndsIn s.runState [.faulted .io, .faulted .parse] (continueInU16 ds s) := by
  unfold continueInU16
  split
  · exact parseInto_endsIn _ (s.setInput _)
  · exact .reach (by simp)
  · exact .keep rfl

/-! ## The instructions -/

/-- The halt states an instruction can move the machine to: HALTED by HALT alone (40_engine.md R97), and a fatal error for
each of the reasons the instruction can raise (60_exceptions.md R135 to R137). -/
def newRunStates : Instr → List RunState
  | .trapHalt => [.halted]
  | .rtiReserved _ | .unusedReserved _ | .trapUnsupported _ => [.faulted .decode]
  | .trapInU16 => [.faulted .io, .faulted .parse]
  | .ld .. | .ldi .. | .ldr .. | .sti .. | .trapGetc | .trapOut | .trapPuts | .trapIn | .trapPutsp | .trapOutU16 =>
    [.faulted .io]
  | .addReg .. | .addImm .. | .andReg .. | .andImm .. | .notReg .. | .lea .. | .st .. | .str .. | .br .. | .jmp ..
  | .jsr .. | .jsrr .. => []

/-- An execute phase keeps the halt state or moves it where `newRunStates` says. -/
theorem exec_endsIn (i : Instr) (s : State) : EndsIn s.runState (newRunStates i) (exec i s) := by
  cases i with
  | addReg _ _ _ | addImm _ _ _ | andReg _ _ _ | andImm _ _ _ | notReg _ _ | lea _ _ | st _ _ | str _ _ _ | jmp _
  | jsr _ | jsrr _ => exact .keep rfl
  | br n z p off => exact .keep (by split <;> rfl)
  | ld d off => exact loadInto_endsIn d (pcRelative off s) s
  | ldr d b off => exact loadInto_endsIn d (baseOffset b off s) s
  | ldi d off => exact .andThen (memRead_keepsOrIo (pcRelative off s) s) fun p s1 hq => hq ▸ loadInto_endsIn d p s1
  | sti r off => exact .andThen (memRead_keepsOrIo (pcRelative off s) s) fun _ _ hq => .keep hq
  | trapGetc => exact continueGetc_endsIn s.link
  | trapIn => exact continueIn_endsIn s.link
  | trapInU16 => exact continueInU16_endsIn [] s.link
  | trapPuts => exact continueString_endsIn putsBytes .puts (s.link.readReg .r0) s.link
  | trapPutsp => exact continueString_endsIn putspBytes .putsp (s.link.readReg .r0) s.link
  | trapOut =>
    exact .andThen (outWrite_keepsOrIo (lowByte (s.link.readReg .r0)) s.link)
      fun _ s1 hq => hq ▸ flushAndFinish_endsIn s1
  | trapOutU16 =>
    exact .andThen (outWriteAll_keepsOrIo (decimalBytes (s.link.readReg .r0)) s.link)
      fun _ s1 hq => hq ▸ flushAndFinish_endsIn s1
  | trapHalt | rtiReserved _ | unusedReserved _ | trapUnsupported _ => exact .reach (List.mem_singleton_self _)

/-- DECODE is among an instruction's reasons only if it is one of the three invalid rows. -/
theorem valid_eq_false_of_decode_mem {i : Instr} (h : .faulted .decode ∈ newRunStates i) : i.valid = false := by
  cases i with
  | rtiReserved _ | unusedReserved _ | trapUnsupported _ => rfl
  | _ => simp [newRunStates] at h

/-- Executing an invalid row raises Fatal(DECODE) and nothing else (30_encoding.md R86, R87). -/
theorem exec_of_valid_eq_false {i : Instr} (h : i.valid = false) (s : State) :
    exec i s = .next (s.raiseFatal .decode) := by
  cases i with
  | rtiReserved _ | unusedReserved _ | trapUnsupported _ => rfl
  | _ => cases h

/-- In a running machine the execute phase raises DECODE exactly on the invalid rows. -/
theorem exec_raises_decode_iff {i : Instr} {s : State} (hr : s.runState = .running) :
    (∃ t, exec i s = .next t ∧ t.runState = .faulted .decode) ↔ i.valid = false := by
  constructor
  · rintro ⟨t, hexec, hdecode⟩
    rcases exec_endsIn i s t hexec with hkeep | hmem
    · rw [hkeep, hr] at hdecode
      cases hdecode
    · exact valid_eq_false_of_decode_mem (hdecode ▸ hmem)
  · exact fun hv => ⟨_, exec_of_valid_eq_false hv s, rfl⟩

end Machine

namespace Proofs

open Machine

/-- Settles O11: the step is the execute phase of the decoded word in a machine still running, it raises DECODE exactly on
the invalid rows (`exec_raises_decode_iff`), and these are the rows of the reserved words
(`decode_valid_eq_false_iff`). -/
theorem decodeErrorsAreExactlyTheReservedWords : Obligations.DecodeErrorsAreExactlyTheReservedWords := by
  intro s w s1 hr hb hread
  have hr1 : (s1.setPc (s1.pc + 1#16)).runState = .running := (memRead_ok hread).1.runState.trans hr
  rw [step_of_memRead_ok hr hb hread, exec_raises_decode_iff hr1]
  exact decode_valid_eq_false_iff w

end Proofs
end Sys2Proof
end

section
/-! PROOFS. What an execute phase can do, for all instructions at once. A meaning is put together from a few primitive
effects (`Effect`), each one update of the state (`Does`); `effects` lists those an instruction may have, and
`exec_leads` says that its execute phase answers a next state reached by them. Each list of the spec of who writes what
then follows from what single effects leave alone. -/

namespace Sys2Proof
namespace Machine

open Claims

/-! ## The host's next answer to an output transaction -/

/-- The host accepts the next output transaction, or it does not. -/
theorem outOk_one_or_refuses (s : State) : outOk 1 s ∨ ∃ rest, s.outAnswers = .error :: rest := by
  unfold outOk
  rcases s.outAnswers with _ | ⟨_ | _, rest⟩ <;> simp

theorem nextOutAnswer_of_outOk {s : State} (h : outOk 1 s) :
    nextOutAnswer s = (.ok, s.setOutAnswers (s.outAnswers.drop 1)) := by
  unfold outOk at h
  unfold nextOutAnswer
  rcases hs : s.outAnswers with _ | ⟨a, rest⟩
  · exact congrArg _ (show s = s.setOutAnswers [] from hs ▸ rfl)
  · obtain rfl : a = .ok := h a (by simp [hs])
    rfl

theorem outWrite_of_outOk (b : Byte) {s : State} (h : outOk 1 s) :
    outWrite b s =
      .ok () ((s.setOutAnswers (s.outAnswers.drop 1)).setOutPending (s.outPending ++ [b])) := by
  rw [outWrite, nextOutAnswer_of_outOk h]
  rfl

theorem outWrite_of_error (b : Byte) {s : State} {rest : List PortAnswer} (h : s.outAnswers = .error :: rest) :
    outWrite b s = .fatal .io (s.setOutAnswers rest) := by
  simp [outWrite, nextOutAnswer, h]

theorem outFlush_of_outOk {s : State} (h : outOk 1 s) :
    outFlush s = .ok () (((s.setOutAnswers (s.outAnswers.drop 1)).setOutDelivered
      (s.outDelivered ++ s.outPending)).setOutPending []) := by
  rw [outFlush, nextOutAnswer_of_outOk h]
  rfl

theorem outFlush_of_error {s : State} {rest : List PortAnswer} (h : s.outAnswers = .error :: rest) :
    outFlush s = .fatal .io (s.setOutAnswers rest) := by
  simp [outFlush, nextOutAnswer, h]

/-! ## Effects -/

/-- The kinds of primitive effect. -/
inductive Effect where
  | reg (r : Reg)
  | pc
  | cond
  | store
  | keyboard
  | input
  | output
  | raise (r : FatalReason)
  | inputError
  | outputError
  | call
  | halt

/-- What each kind of effect does to the state. -/
inductive Does : Effect → State → State → Prop where
  | reg (r : Reg) (v : Word) (s : State) : Does (.reg r) s (s.writeReg r v)
  | pc (v : Word) (s : State) : Does .pc s (s.setPc v)
  | cond (v : Word) (s : State) : Does .cond s (s.setCond v)
  | store (a v : Word) (s : State) : Does .store s (s.memWrite a v)
  | keyboard {a : Word} (ha : a = kbsrAddr ∨ a = kbdrAddr) (v : Word) (s : State) : Does .keyboard s (s.memWrite a v)
  | input {rest : List InEvent} {s : State} (h : rest <:+ s.input) : Does .input s (s.setInput rest)
  | write (b : Byte) (s : State) :
      Does .output s ((s.setOutAnswers (s.outAnswers.drop 1)).setOutPending (s.outPending ++ [b]))
  | flush (s : State) :
      Does .output s (((s.setOutAnswers (s.outAnswers.drop 1)).setOutDelivered
        (s.outDelivered ++ s.outPending)).setOutPending [])
  | raise {r : FatalReason} (hr : r ≠ .io) (s : State) : Does (.raise r) s (s.raiseFatal r)
  | inputError {s : State} {pre rest : List InEvent} (h : s.input = pre ++ .error :: rest) :
      Does .inputError s ((s.setInput rest).raiseFatal .io)
  | outputError {s : State} {rest : List PortAnswer} (h : s.outAnswers = .error :: rest) :
      Does .outputError s ((s.setOutAnswers rest).raiseFatal .io)
  | call (w : Option InProgress) (s : State) : Does .call s (s.setBusy w)
  | halt (s : State) : Does .halt s (s.setRunState .halted)

/-- Any number of effects of the kinds `E`. -/
def Reach (E : List Effect) : State → State → Prop := Relation.ReflTransGen fun s t => ∃ e ∈ E, Does e s t

/-- The outcome is a next state, reached from `s` by effects of the kinds `E`. -/
def Leads (E : List Effect) (s : State) (o : Outcome) : Prop := ∃ t, o = .next t ∧ Reach E s t

/-- The same of an operation: its error counts as raised. -/
def Res.Leads {α : Type} (E : List Effect) (s : State) : Res α → Prop
  | .ok _ t => Reach E s t
  | .fatal r t => Reach E s (t.raiseFatal r)

section
variable {E : List Effect} {s t u : State} {o : Outcome}

theorem Reach.refl (s : State) : Reach E s s := Relation.ReflTransGen.refl

theorem Reach.trans (h : Reach E s t) (k : Reach E t u) : Reach E s u := Relation.ReflTransGen.trans h k

theorem Does.reach {e : Effect} (h : Does e s t) (he : e ∈ E) : Reach E s t := .single ⟨e, he, h⟩

/-- A relation that holds across each effect holds across any number of them, if it is a preorder. -/
theorem Reach.rel {p : State → State → Prop} (h : Reach E s t) (hrefl : ∀ s, p s s)
    (htrans : ∀ s t u, p s t → p t u → p s u) (hdoes : ∀ e ∈ E, ∀ s t, Does e s t → p s t) : p s t := by
  induction h with
  | refl => exact hrefl s
  | tail _ hlast ih =>
    obtain ⟨e, he, hd⟩ := hlast
    exact htrans _ _ _ ih (hdoes e he _ _ hd)

/-- What each effect leaves alone, any number of them leaves alone. -/
theorem Reach.keeps {β : Type} {f : State → β} (h : Reach E s t)
    (hdoes : ∀ e ∈ E, ∀ s t, Does e s t → f t = f s) : f t = f s :=
  h.rel (p := fun s t => f t = f s) (fun _ => rfl) (fun _ _ _ h1 h2 => h2.trans h1) hdoes

theorem Leads.next (h : Reach E s t) : Leads E s (.next t) := ⟨t, rfl, h⟩

theorem Leads.after (h : Reach E s t) (k : Leads E t o) : Leads E s o := by
  obtain ⟨u, ho, hu⟩ := k
  exact ⟨u, ho, h.trans hu⟩

theorem Leads.andThen {α : Type} {x : Res α} {k : α → State → Outcome} (hx : x.Leads E s)
    (hk : ∀ a t, Leads E t (k a t)) : Leads E s (x.andThen k) := by
  cases x with
  | ok a t => exact .after hx (hk a t)
  | fatal r t => exact .next hx

theorem Res.Leads.after {α : Type} {x : Res α} (h : Reach E s t) (hx : x.Leads E t) : x.Leads E s := by
  cases x <;> exact h.trans hx

end

/-! ## The shared operations -/

/-- The effects of a read of memory: the poll's. -/
@[simp] def readEffects : List Effect := [.keyboard, .input, .inputError]

/-- The effects of the output transactions. -/
@[simp] def writeEffects : List Effect := [.output, .outputError]

section
variable {E : List Effect}

theorem memRead_leads (hE : readEffects ⊆ E) (a : Word) (s : State) : (memRead a s).Leads E s := by
  have hkbd : .keyboard ∈ E := hE (by simp)
  have hin : .input ∈ E := hE (by simp)
  have herr : .inputError ∈ E := hE (by simp)
  have hkbsr (v : Word) (t : State) : Reach E t (t.memWrite kbsrAddr v) := (Does.keyboard (.inl rfl) v t).reach hkbd
  by_cases ha : a = kbsrAddr
  · subst ha
    rcases hi : s.input with _ | ⟨e, rest⟩
    · rw [memRead_kbsr_empty hi]
      exact hkbsr _ s
    · have htake : Reach E s (s.setInput rest) := (Does.input (hi ▸ List.suffix_cons e rest)).reach hin
      cases e with
      | byte b =>
        rw [memRead_kbsr_byte hi]
        exact (htake.trans (hkbsr _ _)).trans ((Does.keyboard (.inr rfl) _ _).reach hkbd)
      | noByte =>
        rw [memRead_kbsr_noByte hi]
        exact htake.trans (hkbsr _ _)
      | error =>
        rw [memRead_kbsr_error hi]
        exact (Does.inputError (pre := []) hi).reach herr
  · rw [memRead_plain ha]
    exact Reach.refl s

theorem outWrite_leads (hE : writeEffects ⊆ E) (b : Byte) (s : State) : (outWrite b s).Leads E s := by
  rcases outOk_one_or_refuses s with h | ⟨rest, h⟩
  · rw [outWrite_of_outOk b h]
    exact (Does.write b s).reach (hE (by simp))
  · rw [outWrite_of_error b h]
    exact (Does.outputError h).reach (hE (by simp))

theorem outFlush_leads (hE : writeEffects ⊆ E) (s : State) : (outFlush s).Leads E s := by
  rcases outOk_one_or_refuses s with h | ⟨rest, h⟩
  · rw [outFlush_of_outOk h]
    exact (Does.flush s).reach (hE (by simp))
  · rw [outFlush_of_error h]
    exact (Does.outputError h).reach (hE (by simp))

theorem outWriteAll_leads (hE : writeEffects ⊆ E) (bs : List Byte) (s : State) : (outWriteAll bs s).Leads E s := by
  induction bs generalizing s with
  | nil => exact Reach.refl s
  | cons b rest ih =>
    have hb := outWrite_leads hE b s
    unfold outWriteAll
    split
    next s1 hw =>
      rw [hw] at hb
      exact .after hb (ih s1)
    next r s1 hw =>
      rw [hw] at hb
      exact hb

theorem stringLoop_leads (hR : readEffects ⊆ E) (hW : writeEffects ⊆ E) (bytesOf : Word → List Byte) (fuel : Nat)
    (a : Word) (s : State) : (stringLoop bytesOf fuel a s).toRes.Leads E s := by
  induction fuel generalizing a s with
  | zero => exact Reach.refl s
  | succ f ih =>
    have hread := memRead_leads hR a s
    unfold stringLoop
    split
    next r s1 hm =>
      rw [hm] at hread
      exact hread
    next c s1 hm =>
      rw [hm] at hread
      have hwrite := outWriteAll_leads hW (bytesOf c) s1
      refine .after hread ?_
      split
      · exact Reach.refl s1
      · split
        next r s2 hw =>
          rw [hw] at hwrite
          exact hwrite
        next s2 hw =>
          rw [hw] at hwrite
          exact .after hwrite (ih _ s2)

end

/-! ## The shared meanings -/

section
variable {E : List Effect}

theorem writeResult_reach (d : Reg) (v : Word) (s : State) (hE : [.reg d, .cond] ⊆ E) :
    Reach E s (s.writeResult d v) :=
  ((Does.reg d v s).reach (hE (by simp))).trans ((Does.cond _ _).reach (hE (by simp)))

theorem loadInto_leads (d : Reg) (a : Word) (s : State) (hE : [.reg d, .cond] ⊆ E) (hR : readEffects ⊆ E) :
    Leads E s (loadInto d a s) :=
  .andThen (memRead_leads hR a s) fun v t => .next (writeResult_reach d v t hE)

theorem flushAndFinish_leads (hW : writeEffects ⊆ E) (hC : .call ∈ E) (s : State) : Leads E s (flushAndFinish s) :=
  .andThen (outFlush_leads hW s) fun _ t => .next ((Does.call none t).reach hC)

theorem onByte_leads (w : InProgress) {k : Byte → State → Outcome} (hE : [.input, .inputError, .call] ⊆ E)
    (hk : ∀ b t, Leads E t (k b t)) (s : State) : Leads E s (onByte w k s) := by
  have hin : .input ∈ E := hE (by simp)
  unfold onByte inRead
  rcases inReadFrom_cases s.input s with ⟨b, pre, rest, h, hs, -⟩ | ⟨pre, rest, h, hs, -⟩ | ⟨h, -⟩ <;> rw [h]
  · have hrest : rest <:+ s.input := hs ▸ ⟨pre ++ [.byte b], by simp⟩
    exact .after ((Does.input hrest).reach hin) (hk b _)
  · exact .next ((Does.inputError hs).reach (hE (by simp)))
  · exact .next (((Does.input (List.nil_suffix)).reach hin).trans ((Does.call _ _).reach (hE (by simp))))

theorem continueString_leads (hR : readEffects ⊆ E) (hW : writeEffects ⊆ E) (hC : .call ∈ E)
    (bytesOf : Word → List Byte) (resume : Word → InProgress) (a : Word) (s : State) :
    Leads E s (continueString bytesOf resume a s) := by
  rw [continueString_eq_andThen]
  refine .andThen (stringLoop_leads hR hW bytesOf _ a s) fun next t => ?_
  cases next with
  | none => exact flushAndFinish_leads hW hC t
  | some b => exact .next ((Does.call _ t).reach hC)

theorem continueGetc_leads (hE : [.input, .inputError, .call, .reg .r0] ⊆ E) (s : State) :
    Leads E s (continueGetc s) := by
  simp only [List.cons_subset] at hE
  obtain ⟨hin, herr, hcall, hreg, -⟩ := hE
  exact onByte_leads .getc (by simp [*])
    (fun b t => .next (((Does.reg .r0 (zext8 b) t).reach hreg).trans ((Does.call none _).reach hcall))) s

theorem continueIn_leads (hE : [.input, .inputError, .call, .reg .r0] ⊆ E) (hW : writeEffects ⊆ E) (s : State) :
    Leads E s (continueIn s) := by
  simp only [List.cons_subset] at hE
  obtain ⟨hin, herr, hcall, hreg, -⟩ := hE
  exact onByte_leads .inp (by simp [*])
    (fun b t => .after ((Does.reg .r0 (zext8 b) t).reach hreg)
      (.andThen (outWrite_leads hW b _) fun _ => flushAndFinish_leads hW hcall)) s

theorem parseInto_leads (hE : [.raise .parse, .call, .reg .r0] ⊆ E) (ds : List Nat) (s : State) :
    Leads E s (parseInto ds s) := by
  have hparse : Leads E s (.next (s.raiseFatal .parse)) :=
    .next ((Does.raise (by decide) s).reach (hE (by simp)))
  unfold parseInto
  split
  · exact hparse
  · split
    · exact hparse
    · exact .next (((Does.reg .r0 _ s).reach (hE (by simp))).trans ((Does.call none _).reach (hE (by simp))))

/-- The digit loop takes its answers from the front. -/
theorem digitLoop_taken (es : List InEvent) (ds : List Nat) :
    (∀ ds1 rest, digitLoop es ds = .done ds1 rest → rest <:+ es) ∧
      (∀ rest, digitLoop es ds = .error rest → ∃ pre, es = pre ++ .error :: rest) := by
  induction es generalizing ds with
  | nil => simp [digitLoop]
  | cons e es ih =>
    have keep (ds : List Nat) :
        (∀ ds1 rest, digitLoop es ds = .done ds1 rest → rest <:+ e :: es) ∧
          (∀ rest, digitLoop es ds = .error rest → ∃ pre, e :: es = pre ++ .error :: rest) :=
      ⟨fun ds1 rest h => ((ih ds).1 ds1 rest h).trans (List.suffix_cons e es), fun rest h => by
        obtain ⟨pre, rfl⟩ := (ih ds).2 rest h
        exact ⟨e :: pre, rfl⟩⟩
    cases e with
    | noByte => exact keep ds
    | error => exact ⟨fun _ _ h => by simp [digitLoop] at h, fun rest h => ⟨[], by simpa [digitLoop] using h⟩⟩
    | byte b =>
      unfold digitLoop
      split
      · exact ⟨fun ds1 rest h => by cases h; exact List.suffix_cons _ _, fun _ h => by cases h⟩
      · split
        · exact keep _
        · exact keep ds

theorem continueInU16_leads (hI : [.input, .inputError] ⊆ E) (hE : [.raise .parse, .call, .reg .r0] ⊆ E)
    (ds : List Nat) (s : State) : Leads E s (continueInU16 ds s) := by
  have hin : .input ∈ E := hI (by simp)
  obtain ⟨hdone, herror⟩ := digitLoop_taken s.input ds
  unfold continueInU16
  split
  next ds1 rest h => exact .after ((Does.input (hdone ds1 rest h)).reach hin) (parseInto_leads hE ds1 _)
  next rest h =>
    obtain ⟨pre, hpre⟩ := herror rest h
    exact .next ((Does.inputError hpre).reach (hI (by simp)))
  next ds1 h =>
    exact .next (((Does.input List.nil_suffix).reach hin).trans ((Does.call _ _).reach (hE (by simp))))

end

/-! ## The instructions -/

/-- The effects a call in progress may have. -/
@[simp] def InProgress.effects : InProgress → List Effect
  | .getc => [.reg .r0, .input, .inputError, .call]
  | .inp => [.reg .r0, .input, .inputError, .call] ++ writeEffects
  | .inU16 _ => [.reg .r0, .input, .inputError, .call, .raise .parse]
  | .puts _ | .putsp _ => .call :: (readEffects ++ writeEffects)

/-- The effects the execute phase of an instruction may have. -/
@[simp] def effects : Instr → List Effect
  | .addReg d _ _ | .addImm d _ _ | .andReg d _ _ | .andImm d _ _ | .notReg d _ | .lea d _ => [.reg d, .cond]
  | .ld d _ | .ldi d _ | .ldr d _ _ => .reg d :: .cond :: readEffects
  | .st .. | .str .. => [.store]
  | .sti .. => .store :: readEffects
  | .br .. | .jmp _ => [.pc]
  | .jsr _ | .jsrr _ => [.reg .r7, .pc]
  | .trapGetc => [.reg .r7, .reg .r0, .input, .inputError, .call]
  | .trapIn => [.reg .r7, .reg .r0, .input, .inputError, .call] ++ writeEffects
  | .trapInU16 => [.reg .r7, .reg .r0, .input, .inputError, .call, .raise .parse]
  | .trapPuts | .trapPutsp => .reg .r7 :: .call :: (readEffects ++ writeEffects)
  | .trapOut | .trapOutU16 => .reg .r7 :: .call :: writeEffects
  | .trapHalt => [.halt]
  | .rtiReserved _ | .unusedReserved _ | .trapUnsupported _ => [.raise .decode]

theorem link_reach {E : List Effect} (hE : .reg .r7 ∈ E) (s : State) : Reach E s s.link :=
  (Does.reg .r7 s.pc s).reach hE

/-- A call in progress goes on to a next state, by its effects. -/
theorem resumeTrap_leads (w : InProgress) (s : State) : Leads w.effects s (resumeTrap w s) := by
  cases w with
  | getc => exact continueGetc_leads (by simp) s
  | inp => exact continueIn_leads (by simp) (by simp) s
  | inU16 ds => exact continueInU16_leads (by simp) (by simp) ds s
  | puts a | putsp a =>
    exact continueString_leads (by simp) (by simp)
      (by simp) _ _ a s

/-- The execute phase of an instruction answers a next state, by the instruction's effects. -/
theorem exec_leads (i : Instr) (s : State) : Leads (effects i) s (exec i s) := by
  cases i with
  | addReg d _ _ | addImm d _ _ | andReg d _ _ | andImm d _ _ | notReg d _ | lea d _ =>
    exact .next (writeResult_reach d _ s (List.Subset.refl _))
  | ld d _ | ldr d _ _ => exact loadInto_leads d _ s (by simp) (by simp)
  | ldi d off =>
    exact .andThen (memRead_leads (by simp) (pcRelative off s) s)
      fun p t => loadInto_leads d p t (by simp) (by simp)
  | st _ _ | str _ _ _ => exact .next ((Does.store _ _ s).reach (by simp))
  | sti r off =>
    exact .andThen (memRead_leads (by simp) (pcRelative off s) s)
      fun p t => .next ((Does.store p (t.readReg r) t).reach (by simp))
  | br n z p off =>
    refine .next ?_
    split
    · exact (Does.pc _ s).reach (by simp)
    · exact Reach.refl s
  | jmp _ => exact .next ((Does.pc _ s).reach (by simp))
  | jsr _ | jsrr _ => exact .next ((link_reach (by simp) s).trans ((Does.pc _ _).reach (by simp)))
  | trapGetc => exact .after (link_reach (by simp) s) (continueGetc_leads (by simp) _)
  | trapIn =>
    exact .after (link_reach (by simp) s) (continueIn_leads (by simp) (by simp) _)
  | trapInU16 =>
    exact .after (link_reach (by simp) s)
      (continueInU16_leads (by simp) (by simp) [] _)
  | trapPuts | trapPutsp =>
    exact .after (link_reach (by simp) s)
      (continueString_leads (by simp) (by simp) (by simp) _ _ _ _)
  | trapOut =>
    exact .after (link_reach (by simp) s)
      (.andThen (outWrite_leads (by simp) _ _)
        fun _ => flushAndFinish_leads (by simp) (by simp))
  | trapOutU16 =>
    exact .after (link_reach (by simp) s)
      (.andThen (outWriteAll_leads (by simp) _ _)
        fun _ => flushAndFinish_leads (by simp) (by simp))
  | trapHalt => exact .next ((Does.halt s).reach (by simp))
  | rtiReserved _ | unusedReserved _ | trapUnsupported _ =>
    exact .next ((Does.raise (by decide) s).reach (by simp))

end Machine
end Sys2Proof
end

section
/-! PROOFS. The step by its four cases (40_engine.md R99), and the statements that follow from what single effects leave
alone: totality, the halt state, fatal errors and the order of the ports. -/

namespace Sys2Proof
namespace Machine

open Claims

/-! ## The step -/

section
variable {s : State}

theorem step_of_not_running (h : s.runState ≠ .running) : step s = .next s := by
  unfold step
  cases hr : s.runState with
  | running => exact absurd hr h
  | halted | faulted r => rfl

theorem step_busy {w : InProgress} (hr : s.runState = .running) (hb : s.busy = some w) : step s = resumeTrap w s := by
  simp [step, hr, hb]

/-- The four ways of a step: none, a call that goes on, a word executed, a fetch that fails. -/
theorem step_cases (s : State) :
    (s.runState ≠ .running ∧ step s = .next s) ∨
      (s.runState = .running ∧ ∃ w, s.busy = some w ∧ step s = resumeTrap w s) ∨
      (s.runState = .running ∧ s.busy = none ∧ ∃ w s1, memRead s.pc s = .ok w s1 ∧
        step s = exec (decode w) (s1.setPc (s1.pc + 1#16))) ∨
      (s.runState = .running ∧ s.busy = none ∧ ∃ s1, memRead s.pc s = .fatal .io s1 ∧
        step s = .next (s1.raiseFatal .io)) := by
  by_cases hr : s.runState = .running
  · right
    cases hb : s.busy with
    | some w => exact .inl ⟨hr, w, rfl, step_busy hr hb⟩
    | none =>
      right
      cases hm : memRead s.pc s with
      | ok w s1 => exact .inl ⟨hr, rfl, w, s1, rfl, step_of_memRead_ok hr hb hm⟩
      | fatal r s1 =>
        obtain ⟨-, rfl, -⟩ := memRead_fatal hm
        exact .inr ⟨hr, rfl, s1, rfl, step_of_memRead_fatal hr hb hm⟩
  · exact .inl ⟨hr, step_of_not_running hr⟩

end

theorem Reach.mono {E F : List Effect} {s t : State} (h : Reach E s t) (hEF : E ⊆ F) : Reach F s t :=
  h.rel Reach.refl (fun _ _ _ => Reach.trans) fun _ he _ _ hd => hd.reach (hEF he)

theorem Leads.mono {E F : List Effect} {s : State} {o : Outcome} (h : Leads E s o) (hEF : E ⊆ F) : Leads F s o := by
  obtain ⟨t, ho, ht⟩ := h
  exact ⟨t, ho, ht.mono hEF⟩

theorem Leads.reach {E : List Effect} {s t : State} {o : Outcome} (h : Leads E s o) (ho : o = .next t) :
    Reach E s t := by
  obtain ⟨u, hu, hreach⟩ := h
  cases hu.symm.trans ho
  exact hreach

theorem exec_reach {i : Instr} {s t : State} (h : exec i s = .next t) : Reach (effects i) s t :=
  (exec_leads i s).reach h

/-- Every step answers a next state, reached by some effects. -/
theorem step_leads (s : State) : ∃ E, Leads E s (step s) := by
  rcases step_cases s with ⟨-, h⟩ | ⟨-, w, -, h⟩ | ⟨-, -, w, s1, hm, h⟩ | ⟨-, -, s1, hm, h⟩ <;> rw [h]
  · exact ⟨[], .next (Reach.refl s)⟩
  · exact ⟨_, resumeTrap_leads w s⟩
  · have hread := memRead_leads (E := .pc :: readEffects) (List.subset_cons_self _ _) s.pc s
    rw [hm] at hread
    have hfetch := Reach.trans hread ((Does.pc (s1.pc + 1#16) s1).reach List.mem_cons_self)
    exact ⟨_, .after (hfetch.mono (List.subset_append_left _ _))
      ((exec_leads (decode w) _).mono (List.subset_append_right _ _))⟩
  · have hread := memRead_leads (E := readEffects) (by simp) s.pc s
    rw [hm] at hread
    exact ⟨_, .next hread⟩

/-! ## What single effects leave alone -/

section
variable {e : Effect} {s t : State}

theorem Does.readReg_eq (h : Does e s t) {r : Reg} (he : e ≠ .reg r) : t.readReg r = s.readReg r := by
  cases h with
  | reg q v => rw [State.readReg_writeReg, if_neg fun hrq : r = q => he (hrq ▸ rfl)]
  | _ => rfl

theorem Does.pc_eq (h : Does e s t) (he : e ≠ .pc) : t.pc = s.pc := by
  cases h with
  | pc v => exact absurd rfl he
  | _ => rfl

theorem Does.cond_eq (h : Does e s t) (he : e ≠ .cond) : t.cond = s.cond := by
  cases h with
  | cond v => exact absurd rfl he
  | _ => rfl

theorem Does.mem_eq (h : Does e s t) (hs : e ≠ .store) (hk : e ≠ .keyboard) : t.mem = s.mem := by
  cases h with
  | store a v => exact absurd rfl hs
  | keyboard ha v => exact absurd rfl hk
  | _ => rfl

theorem Does.cell_eq (h : Does e s t) (hs : e ≠ .store) {a : Word} (h1 : a ≠ kbsrAddr) (h2 : a ≠ kbdrAddr) :
    t.cell a = s.cell a := by
  cases h with
  | store b v => exact absurd rfl hs
  | @keyboard b hb v =>
    have hab : a ≠ b := fun hab => hb.elim (hab ▸ h1) (hab ▸ h2)
    rw [State.cell_memWrite, if_neg hab]
  | _ => rfl

theorem Does.memWf (h : Does e s t) (hw : s.mem.wf = true) : t.mem.wf = true := by
  cases h with
  | store a v | keyboard ha v => exact State.memWrite_wf _ _ hw
  | _ => exact hw

theorem Does.outputs_eq (h : Does e s t) (ho : e ≠ .output) (he : e ≠ .outputError) :
    (t.outAnswers, t.outPending, t.outDelivered) = (s.outAnswers, s.outPending, s.outDelivered) := by
  cases h with
  | write b | flush => exact absurd rfl ho
  | outputError hs => exact absurd rfl he
  | _ => rfl

theorem Does.input_eq (h : Does e s t) (hi : e ≠ .input) (he : e ≠ .inputError) : t.input = s.input := by
  cases h with
  | input hs => exact absurd rfl hi
  | inputError hs => exact absurd rfl he
  | _ => rfl

theorem Does.not_halted (h : Does e s t) (hh : e ≠ .halt) (hs : s.runState ≠ .halted) : t.runState ≠ .halted := by
  cases h with
  | halt => exact absurd rfl hh
  | raise | inputError | outputError => exact nofun
  | _ => exact hs

end

/-- The halt state and the call in progress are as they were, or both have ended in a fatal error. -/
def RunFrame (s t : State) : Prop :=
  (t.runState = s.runState ∧ t.busy = s.busy) ∨ (t.runState.isFaulted = true ∧ t.busy = none)

theorem RunFrame.refl (s : State) : RunFrame s s := .inl ⟨rfl, rfl⟩

theorem RunFrame.trans {s t u : State} (h : RunFrame s t) (k : RunFrame t u) : RunFrame s u := by
  rcases k with ⟨hrun, hbusy⟩ | hend
  · exact h.imp (fun ⟨h1, h2⟩ => ⟨hrun.trans h1, hbusy.trans h2⟩) fun ⟨h1, h2⟩ => ⟨hrun ▸ h1, hbusy.trans h2⟩
  · exact .inr hend

theorem Does.runFrame {e : Effect} {s t : State} (h : Does e s t) (hc : e ≠ .call) (hh : e ≠ .halt) : RunFrame s t := by
  cases h with
  | call w => exact absurd rfl hc
  | halt => exact absurd rfl hh
  | raise | inputError | outputError => exact .inr ⟨rfl, rfl⟩
  | _ => exact .inl ⟨rfl, rfl⟩

/-- The order of the ports (70_reset_and_hazards.md R156). -/
structure PortsInOrder (s t : State) : Prop where
  delivered : s.outDelivered <+: t.outDelivered
  written : (s.outDelivered ++ s.outPending) <+: (t.outDelivered ++ t.outPending)
  input : t.input <:+ s.input

theorem PortsInOrder.refl (s : State) : PortsInOrder s s :=
  ⟨List.prefix_refl _, List.prefix_refl _, List.suffix_refl _⟩

theorem PortsInOrder.trans {s t u : State} (h : PortsInOrder s t) (k : PortsInOrder t u) : PortsInOrder s u :=
  ⟨h.delivered.trans k.delivered, h.written.trans k.written, k.input.trans h.input⟩

theorem Does.portsInOrder {e : Effect} {s t : State} (h : Does e s t) : PortsInOrder s t := by
  cases h with
  | input hs => exact { PortsInOrder.refl s with input := hs }
  | @inputError _ pre rest hs =>
    exact { PortsInOrder.refl s with input := hs ▸ (List.suffix_cons _ rest).trans (List.suffix_append pre _) }
  | write b => exact { PortsInOrder.refl s with written := ⟨[b], by simp⟩ }
  | flush => exact { PortsInOrder.refl s with delivered := ⟨_, rfl⟩, written := by simp }
  | _ => exact ⟨List.prefix_refl _, List.prefix_refl _, List.suffix_refl _⟩

end Machine
end Sys2Proof
end

section
/-! PROOFS. The statements over all instructions or all steps that the effects decide: totality, the halt state, the
sources of fatal errors, the ports, and the spec's lists of who writes what. -/

namespace Sys2Proof
namespace Machine

open Claims

/-! ## The effects of an instruction and the spec's lists -/

section
variable {i : Instr}

theorem mem_writesRegs_of_effect {r : Reg} (h : .reg r ∈ effects i) : r ∈ writesRegs i := by
  cases i <;> simp [writesRegs] at h ⊢ <;> exact h

theorem writesPc_of_effect (h : .pc ∈ effects i) : writesPc i = true := by
  cases i <;> simp [writesPc] at h ⊢

theorem isStore_of_effect (h : .store ∈ effects i) : isStore i = true := by
  cases i <;> simp [isStore] at h ⊢

theorem readsMemory_of_effect (h : .keyboard ∈ effects i) : readsMemory i = true := by
  cases i <;> simp [readsMemory] at h ⊢

/-- The instructions that are a trap call. -/
def trapCalls : List Instr :=
  [.trapGetc, .trapOut, .trapPuts, .trapIn, .trapPutsp, .trapHalt, .trapInU16, .trapOutU16]

/-- What an instruction that is no trap call does not do. -/
theorem effects_of_not_trapCall (hi : i ∉ trapCalls) :
    .output ∉ effects i ∧ .outputError ∉ effects i ∧ .call ∉ effects i ∧ .halt ∉ effects i ∧
      (readsMemory i = false → .input ∉ effects i ∧ .inputError ∉ effects i) := by
  cases i <;> simp [trapCalls, readsMemory] at hi ⊢

theorem writesPc_eq_false_of_mem_newRunStates {q : RunState} (h : q ∈ newRunStates i) : writesPc i = false := by
  cases i <;> simp [newRunStates, writesPc] at h ⊢

/-- Only an instruction that reads memory or is a console call can raise IO. -/
theorem io_instr_of_mem_newRunStates (h : .faulted .io ∈ newRunStates i) :
    readsMemory i = true ∨ i ∈ [.trapGetc, .trapOut, .trapIn, .trapInU16, .trapOutU16] := by
  cases i <;> simp [newRunStates, readsMemory] at h ⊢

theorem eq_trapInU16_of_mem_newRunStates (h : .faulted .parse ∈ newRunStates i) : i = .trapInU16 := by
  cases i <;> simp [newRunStates] at h ⊢

theorem eq_trapHalt_of_mem_newRunStates (h : .halted ∈ newRunStates i) : i = .trapHalt := by
  cases i <;> simp [newRunStates] at h ⊢

end

/-! ## The source of Fatal(IO) -/

/-- The run has ended in Fatal(IO), or an error is among the host's answers still to come. -/
def IoAccounted (s : State) : Prop :=
  s.runState = .faulted .io ∨ InEvent.error ∈ s.input ∨ PortAnswer.error ∈ s.outAnswers

/-- No effect makes an error up: where one is accounted for afterwards, it was before. -/
theorem Does.ioAccounted {e : Effect} {s t : State} (h : Does e s t) (ht : IoAccounted t) : IoAccounted s := by
  cases h with
  | input hs => exact ht.imp_right (.imp_left fun herr => hs.mem herr)
  | write b | flush => exact ht.imp_right (.imp_right List.mem_of_mem_drop)
  | @raise r hr =>
    rcases ht with hq | hans
    · exact absurd (RunState.faulted.inj hq) hr
    · exact .inr hans
  | inputError hs => exact .inr (.inl (by simp [hs]))
  | outputError hs => exact .inr (.inr (by simp [hs]))
  | halt =>
    rcases ht with hq | hans
    · cases hq
    · exact .inr hans
  | _ => exact ht

/-! ## What an instruction and a call in progress leave alone -/

section
variable {i : Instr} {w : InProgress} {s t : State}

theorem exec_pc (h : exec i s = .next t) (hi : writesPc i = false) : t.pc = s.pc :=
  (exec_reach h).keeps fun e he _ _ hd => hd.pc_eq fun heq => by
    simp [writesPc_of_effect (heq ▸ he)] at hi

/-- An instruction that is no trap call leaves the output port, and ends the run only in a fatal error. -/
theorem exec_of_not_trapCall (h : exec i s = .next t) (hi : i ∉ trapCalls) :
    (t.outAnswers, t.outPending, t.outDelivered) = (s.outAnswers, s.outPending, s.outDelivered) ∧ RunFrame s t := by
  obtain ⟨hout, houtErr, hcall, hhalt, -⟩ := effects_of_not_trapCall hi
  constructor
  · exact (exec_reach h).keeps (f := fun s => (s.outAnswers, s.outPending, s.outDelivered)) fun _ he _ _ hd =>
      hd.outputs_eq (ne_of_mem_of_not_mem he hout) (ne_of_mem_of_not_mem he houtErr)
  · exact (exec_reach h).rel RunFrame.refl (fun _ _ _ => RunFrame.trans) fun _ he _ _ hd =>
      hd.runFrame (ne_of_mem_of_not_mem he hcall) (ne_of_mem_of_not_mem he hhalt)

theorem resumeTrap_reach (h : resumeTrap w s = .next t) : Reach w.effects s t := (resumeTrap_leads w s).reach h

/-- What a call in progress does not do. -/
theorem InProgress.not_mem_effects (w : InProgress) :
    .pc ∉ w.effects ∧ .cond ∉ w.effects ∧ .store ∉ w.effects ∧ .halt ∉ w.effects ∧
      ∀ r, r ≠ .r0 → .reg r ∉ w.effects := by
  cases w <;> simp

theorem resumeTrap_pc (h : resumeTrap w s = .next t) : t.pc = s.pc :=
  (resumeTrap_reach h).keeps fun _ he _ _ hd => hd.pc_eq (ne_of_mem_of_not_mem he w.not_mem_effects.1)

theorem resumeTrap_not_halted (h : resumeTrap w s = .next t) (hs : s.runState = .running) :
    t.runState ≠ .halted := by
  obtain ⟨-, -, -, hhalt, -⟩ := w.not_mem_effects
  exact (resumeTrap_reach h).rel (p := fun s t => s.runState ≠ .halted → t.runState ≠ .halted) (fun _ => id)
    (fun _ _ _ h1 h2 => h2 ∘ h1) (fun _ he _ _ hd => hd.not_halted (ne_of_mem_of_not_mem he hhalt)) (hs ▸ nofun)

theorem resumeTrap_cond (h : resumeTrap w s = .next t) : t.cond = s.cond := by
  obtain ⟨-, hcond, -⟩ := w.not_mem_effects
  exact (resumeTrap_reach h).keeps fun _ he _ _ hd => hd.cond_eq (ne_of_mem_of_not_mem he hcond)

/-- An instruction that ends a running machine in a fatal error does not write PC. -/
theorem exec_faulted_pc (h : exec i s = .next t) (hs : s.runState = .running) (ht : t.runState.isFaulted = true) :
    t.pc = s.pc := by
  rcases exec_endsIn i s t h with hq | hq
  · rw [hq, hs] at ht
    cases ht
  · exact exec_pc h (writesPc_eq_false_of_mem_newRunStates hq)

end

/-! ## The results of the instructions that set COND -/

theorem loadInto_cond {d : Reg} {a : Word} {s t : State} (h : loadInto d a s = .next t) (ht : t.runState = .running) :
    t.cond = ccOf (t.readReg d) := by
  rcases Res.andThen_eq_next.mp h with ⟨v, s1, -, hres⟩ | ⟨r, s1, -, rfl⟩
  · cases hres
    rfl
  · cases ht

theorem exec_cond_of_setsCond {i : Instr} {s t : State} (h : exec i s = .next t) (hi : setsCond i = true)
    (ht : t.runState = .running) : ∀ d ∈ writesRegs i, t.cond = ccOf (t.readReg d) := by
  cases i with
  | addReg d _ _ | addImm d _ _ | andReg d _ _ | andImm d _ _ | notReg d _ | lea d _ =>
    cases h
    simp only [writesRegs, List.mem_singleton, forall_eq]
    rfl
  | ld d _ | ldr d _ _ => simpa only [writesRegs, List.mem_singleton, forall_eq] using loadInto_cond h ht
  | ldi d _ =>
    simp only [writesRegs, List.mem_singleton, forall_eq]
    rcases Res.andThen_eq_next.mp h with ⟨p, s1, -, hload⟩ | ⟨r, s1, -, rfl⟩
    · exact loadInto_cond hload ht
    · cases ht
  | _ => cases hi

/-! ## The stores -/

/-- A store is one write of a register, at its target, in the state the target is computed in. -/
theorem exec_store {i : Instr} {s s1 t : State} {p : Word} (hp : storeTarget i s = some (p, s1))
    (h : exec i s = .next t) :
    ReadFrame s s1 ∧ ((∀ r o, i ≠ .sti r o) → s1 = s) ∧ ∃ r, t = s1.memWrite p (s1.readReg r) := by
  cases i with
  | st r _ | str r _ _ =>
    cases hp
    cases h
    exact ⟨ReadFrame.refl s, fun _ => rfl, r, rfl⟩
  | sti r o =>
    simp only [storeTarget] at hp
    split at hp
    next q s2 hread =>
      cases hp
      rcases Res.andThen_eq_next.mp h with ⟨q, s2, hread2, hstore⟩ | ⟨e, s2, hfail, -⟩
      · cases hread.symm.trans hread2
        cases hstore
        exact ⟨(memRead_ok hread).1, fun hne => absurd rfl (hne r o), r, rfl⟩
      · cases hread.symm.trans hfail
    next => cases hp
  | _ => cases hp

end Machine

namespace Proofs

open Machine

/-- Settles O9: `step_leads`. -/
theorem everyStepAnswersANextState : Obligations.EveryStepAnswersANextState := by
  intro s
  obtain ⟨_, t, h, -⟩ := step_leads s
  exact ⟨t, h⟩

/-- Settles O10, by the four cases of a step: a call in progress cannot halt, and of the instructions only HALT can. -/
theorem onlyTrapHaltReachesHalted : Obligations.OnlyTrapHaltReachesHalted := by
  intro s t h hr ht
  rcases step_cases s with ⟨hn, -⟩ | ⟨-, w, -, hstep⟩ | ⟨-, hb, w, s1, hm, hstep⟩ | ⟨-, -, s1, -, hstep⟩
  · exact absurd hr hn
  · exact absurd ht (resumeTrap_not_halted (hstep ▸ h) hr)
  · refine ⟨hb, w, s1, hm, ?_⟩
    have hr1 : s1.runState = .running := (memRead_ok hm).1.runState.trans hr
    rcases exec_endsIn _ _ t (hstep ▸ h) with hq | hq
    · cases ht.symm.trans (hq.trans hr1)
    · exact eq_trapHalt_of_mem_newRunStates (ht ▸ hq)
  · cases hstep.symm.trans h
    cases ht

/-- Settles O13: the reason is one the instruction can raise (`exec_endsIn`), and an error of the host that shows after
the run was among its answers before (`Does.ioAccounted`). -/
theorem faultReasonsHaveTheirSources : Obligations.FaultReasonsHaveTheirSources := by
  intro i s t r h hs ht
  have hmem : .faulted r ∈ newRunStates i := by
    rcases exec_endsIn i s t h with hq | hq
    · cases ht.symm.trans (hq.trans hs)
    · exact ht ▸ hq
  cases r with
  | decode => exact valid_eq_false_of_decode_mem hmem
  | parse => exact eq_trapInU16_of_mem_newRunStates hmem
  | io =>
    have hacc : IoAccounted s := (exec_reach h).rel (p := fun s t => IoAccounted t → IoAccounted s) (fun _ => id)
      (fun _ _ _ h1 h2 => h1 ∘ h2) (fun _ _ _ _ hd => hd.ioAccounted) (.inl ht)
    exact ⟨io_instr_of_mem_newRunStates hmem, hacc.resolve_left (hs ▸ nofun)⟩

/-- Settles O14, by the four cases of a step. -/
theorem fatalErrorsLeavePcAfterTheWord : Obligations.FatalErrorsLeavePcAfterTheWord := by
  intro s t hr h ht
  rcases step_cases s with ⟨hn, -⟩ | ⟨-, w, hb, hstep⟩ | ⟨-, hb, w, s1, hm, hstep⟩ | ⟨-, hb, s1, hm, hstep⟩
  · exact absurd hr hn
  · exact ⟨fun hnone => absurd (hb.symm.trans hnone) nofun, fun _ => resumeTrap_pc (hstep ▸ h)⟩
  · have hframe := (memRead_ok hm).1
    have hpc := exec_faulted_pc (s := s1.setPc (s1.pc + 1#16)) (hstep ▸ h) (hframe.runState.trans hr) ht
    refine ⟨fun _ => ⟨fun _ _ _ => hpc.trans (by simp [hframe.pc]), fun r s2 hfail => ?_⟩, fun hne => absurd hb hne⟩
    cases hm.symm.trans hfail
  · cases hstep.symm.trans h
    obtain ⟨-, -, rest, -, rfl⟩ := memRead_fatal hm
    refine ⟨fun _ => ⟨fun w s2 hok => ?_, fun _ _ _ => rfl⟩, fun hne => absurd hb hne⟩
    cases hm.symm.trans hok

/-- Settles O18: every effect keeps the order (`Does.portsInOrder`). -/
theorem portsKeepTheOrderOfBytes : Obligations.PortsKeepTheOrderOfBytes := by
  intro s t h
  obtain ⟨E, hlead⟩ := step_leads s
  obtain ⟨hdelivered, hwritten, hinput⟩ :=
    (hlead.reach h).rel PortsInOrder.refl (fun _ _ _ => PortsInOrder.trans) fun _ _ _ _ hd => hd.portsInOrder
  exact ⟨hdelivered, hwritten, hinput⟩

/-- Settles O19: an effect that writes a register is of the list (`mem_writesRegs_of_effect`). -/
theorem onlyListedRegistersAreWritten : Obligations.OnlyListedRegistersAreWritten := fun _ _ _ r h hr =>
  (exec_reach h).keeps (f := (·.readReg r)) fun _ he _ _ hd =>
    hd.readReg_eq fun heq => hr (mem_writesRegs_of_effect (heq ▸ he))

/-- Settles O20: the effects of all but the four transfers leave pc (`exec_pc`), those of a call in progress too
(`resumeTrap_pc`); the last clause is by the four cases of a step. -/
theorem onlyFetchAndControlTransfersWritePc : Obligations.OnlyFetchAndControlTransfersWritePc := by
  refine ⟨fun i s t h hi => exec_pc h hi, fun n z p o s hnot => ?_, fun s t hr hbusy h => ?_, fun s t h => ?_⟩
  · exact congrArg _ (if_neg (by simp [hnot]))
  · obtain ⟨w, hw⟩ := Option.ne_none_iff_exists'.mp hbusy
    exact resumeTrap_pc (step_busy hr hw ▸ h)
  · rcases step_cases s with ⟨-, hstep⟩ | ⟨-, w, -, hstep⟩ | ⟨hr, hb, w, s1, hm, hstep⟩ | ⟨-, -, s1, hm, hstep⟩
    · cases hstep.symm.trans h
      exact .inl rfl
    · exact .inl (resumeTrap_pc (hstep ▸ h))
    · cases hpc : writesPc (decode w) with
      | true => exact .inr (.inr ⟨hr, hb, w, s1, hm, hpc⟩)
      | false => exact .inr (.inl ((exec_pc (hstep ▸ h) hpc).trans (by simp [(memRead_ok hm).1.pc])))
    · cases hstep.symm.trans h
      obtain ⟨-, -, rest, -, rfl⟩ := memRead_fatal hm
      exact .inl rfl

/-- Settles O21: COND is written through SetCC alone, and only by the listed instructions (`exec_cond`); one of them
that ends with the machine running has written its result (`exec_cond_of_setsCond`). -/
theorem exactlyTheListedInstructionsSetCond : Obligations.ExactlyTheListedInstructionsSetCond := by
  intro i s t h _
  refine ⟨fun hno => (exec_cond h).resolve_right fun ⟨hset, _⟩ => ?_, fun hset ht => exec_cond_of_setsCond h hset ht⟩
  rw [hno] at hset
  cases hset

/-- Settles O23: an effect that writes a cell is a store's or the poll's. -/
theorem onlyStoresAndThePollWriteMemory : Obligations.OnlyStoresAndThePollWriteMemory := by
  intro i s t h hi
  have hstore : .store ∉ effects i := fun he => by simp [isStore_of_effect he] at hi
  refine ⟨fun a h1 h2 => ?_, fun hread => ?_⟩
  · exact (exec_reach h).keeps (f := (·.cell a)) fun _ he _ _ hd =>
      hd.cell_eq (ne_of_mem_of_not_mem he hstore) h1 h2
  · have hkbd : .keyboard ∉ effects i := fun he => by simp [readsMemory_of_effect he] at hread
    exact (exec_reach h).keeps fun _ he _ _ hd =>
      hd.mem_eq (ne_of_mem_of_not_mem he hstore) (ne_of_mem_of_not_mem he hkbd)

/-- Settles O24: the store is one write (`exec_store`) in the state the pointer read leaves (`ReadFrame`). -/
theorem storesChangeOnlyTheirTarget : Obligations.StoresChangeOnlyTheirTarget := by
  intro i s s1 t p hp h
  obtain ⟨hframe, hsame, r, rfl⟩ := exec_store hp h
  exact ⟨fun a ha => by simp [ha], hframe.cells, hsame, hframe.regs, hframe.pc, hframe.cond, hframe.runState,
    hframe.busy, rfl, hframe.outAnswers, hframe.outPending, hframe.outDelivered⟩

/-- Settles O25: `exec_of_not_trapCall`; and only an effect of reading memory touches the input port. -/
theorem onlyTrapsUseTheConsole : Obligations.OnlyTrapsUseTheConsole := by
  intro i s t h hi
  obtain ⟨hports, hrun⟩ := exec_of_not_trapCall h hi
  simp only [Prod.mk.injEq] at hports
  obtain ⟨hans, hpend, hdel⟩ := hports
  refine ⟨hans, hpend, hdel, fun hread => ?_, hrun⟩
  obtain ⟨-, -, -, -, hin⟩ := effects_of_not_trapCall hi
  obtain ⟨hinput, hinErr⟩ := hin hread
  exact (exec_reach h).keeps fun _ he _ _ hd =>
    hd.input_eq (ne_of_mem_of_not_mem he hinput) (ne_of_mem_of_not_mem he hinErr)

/-- Settles O58: the effects of a call in progress (`InProgress.not_mem_effects`). -/
theorem resumedCallsKeepTheTrapFootprint : Obligations.ResumedCallsKeepTheTrapFootprint := by
  intro s t hr hbusy h
  obtain ⟨w, hw⟩ := Option.ne_none_iff_exists'.mp hbusy
  rw [step_busy hr hw] at h
  obtain ⟨-, -, hstore, -, hreg⟩ := w.not_mem_effects
  have hreach := resumeTrap_reach h
  refine ⟨fun r hr0 => ?_, resumeTrap_pc h, resumeTrap_cond h, fun a h1 h2 => ?_, resumeTrap_not_halted h hr⟩
  · exact hreach.keeps (f := (·.readReg r)) fun _ he _ _ hd => hd.readReg_eq (ne_of_mem_of_not_mem he (hreg r hr0))
  · exact hreach.keeps (f := (·.cell a)) fun _ he _ _ hd => hd.cell_eq (ne_of_mem_of_not_mem he hstore) h1 h2

end Proofs
end Sys2Proof
end

section
/-! PROOFS. The machine invariant (O15, O16), COND over a run (O17) and the terminal states (O8). COND and memory are
kept by every effect; what is left of the invariant, the call in progress and the bytes not flushed, is a matter of how a
meaning ends (`Settled`). -/

namespace Sys2Proof
namespace Machine

open Claims

/-! ## COND -/

/-- Exactly one of the three flags (10_state.md R25). -/
def OneFlag (c : Word) : Prop := c = condN ∨ c = condZ ∨ c = condP

theorem ccOf_oneFlag (v : Word) : OneFlag (ccOf v) := condOf_cases v

theorem exec_oneFlag {i : Instr} {s t : State} (h : exec i s = .next t) (hs : OneFlag s.cond) : OneFlag t.cond := by
  rcases exec_cond h with hc | ⟨-, d, -, hc⟩ <;> rw [hc]
  · exact hs
  · exact ccOf_oneFlag _

theorem step_oneFlag {s t : State} (h : step s = .next t) (hs : OneFlag s.cond) : OneFlag t.cond := by
  rcases step_cases s with ⟨-, hstep⟩ | ⟨-, w, -, hstep⟩ | ⟨-, -, w, s1, hm, hstep⟩ | ⟨-, -, s1, hm, hstep⟩
  · cases hstep.symm.trans h
    exact hs
  · exact resumeTrap_cond (hstep ▸ h) ▸ hs
  · exact exec_oneFlag (hstep ▸ h) ((memRead_ok hm).1.cond ▸ hs)
  · cases hstep.symm.trans h
    obtain ⟨-, -, rest, -, rfl⟩ := memRead_fatal hm
    exact hs

/-- One step and then `n` more: every step answers a next state. -/
theorem runFor_succ (n : Nat) (s : State) : ∃ t, step s = .next t ∧ runFor (n + 1) s = runFor n t := by
  obtain ⟨_, t, h, -⟩ := step_leads s
  exact ⟨t, h, by simp [runFor, h]⟩

/-- What every step keeps holds after a run of any length. -/
theorem runFor_keeps {p : State → Prop} (hstep : ∀ s t, step s = .next t → p s → p t) (n : Nat) {s : State} (hs : p s) :
    p (runFor n s) := by
  induction n generalizing s with
  | zero => exact hs
  | succ n ih =>
    obtain ⟨t, h, hrun⟩ := runFor_succ n s
    rw [hrun]
    exact ih (hstep s t h hs)

/-! ## How a meaning ends -/

/-- The invariant's clauses about the call in progress and the bytes not flushed. -/
structure Settled (s : State) : Prop where
  busyRunning : s.busy ≠ none → s.runState = .running
  digitsDecimal : ∀ ds, s.busy = some (.inU16 ds) → ∀ d ∈ ds, d ≤ 9
  outputSettled : s.runState.isFaulted = false → (∀ t, s.busy = some t → t.isString = false) → s.outPending = []

/-- If the outcome is a next state, it is settled. -/
def SettlesIn (o : Outcome) : Prop := ∀ t, o = .next t → Settled t

theorem digitValue_le {b : Byte} (h : isDigit b = true) : digitValue b ≤ 9 := by
  unfold isDigit at h
  unfold digitValue
  simp only [Bool.and_eq_true, decide_eq_true_eq] at h
  omega

/-- The digit loop adds decimal digits alone to those it has. -/
theorem digitLoop_decimal {es : List InEvent} {ds ds1 : List Nat} (h : digitLoop es ds = .waits ds1)
    (hds : ∀ d ∈ ds, d ≤ 9) : ∀ d ∈ ds1, d ≤ 9 := by
  induction es generalizing ds with
  | nil =>
    cases h
    exact hds
  | cons e es ih =>
    cases e with
    | noByte => exact ih h hds
    | error => cases h
    | byte b =>
      unfold digitLoop at h
      split at h
      · cases h
      · split at h
        case isTrue hb =>
          refine ih h fun d hd => ?_
          rcases List.mem_append.mp hd with hd | hd
          · exact hds d hd
          · exact List.mem_singleton.mp hd ▸ digitValue_le hb
        case isFalse => exact ih h hds

/-- The digits a call has read are decimal digits. -/
def InProgress.Decimal (w : InProgress) : Prop := ∀ ds, w = .inU16 ds → ∀ d ∈ ds, d ≤ 9

section
variable {s : State}

theorem Settled.of_faulted (hq : s.runState.isFaulted = true) (hb : s.busy = none) : Settled s where
  busyRunning h := absurd hb h
  digitsDecimal _ h := absurd (hb.symm.trans h) nofun
  outputSettled h := absurd (hq.symm.trans h) nofun

theorem Settled.of_flushed (hb : s.busy = none) (hp : s.outPending = []) : Settled s where
  busyRunning h := absurd hb h
  digitsDecimal _ h := absurd (hb.symm.trans h) nofun
  outputSettled _ _ := hp

/-- A call that is left in progress. -/
theorem Settled.of_call {w : InProgress} (hr : s.runState = .running) (hw : w.Decimal)
    (hp : w.isString = false → s.outPending = []) : Settled (s.setBusy (some w)) where
  busyRunning _ := hr
  digitsDecimal ds h := hw ds (Option.some.inj h)
  outputSettled _ h := hp (h w rfl)

theorem SettlesIn.next (h : Settled s) : SettlesIn (.next s) := by
  rintro t ⟨⟩
  exact h

theorem SettlesIn.raiseFatal (r : FatalReason) : SettlesIn (.next (s.raiseFatal r)) := .next (.of_faulted rfl rfl)

theorem SettlesIn.andThen {α : Type} {x : Res α} {k : α → State → Outcome} (hk : ∀ a s, SettlesIn (k a s)) :
    SettlesIn (x.andThen k) := by
  cases x with
  | ok a s => exact hk a s
  | fatal r s => exact .raiseFatal r

theorem flushAndFinish_settlesIn (s : State) : SettlesIn (flushAndFinish s) := by
  intro t h
  obtain ⟨⟨-, -, -, -, -, hb⟩, ⟨-, hp, -⟩ | ⟨hq, -⟩⟩ := flushAndFinish_next h
  · exact .of_flushed hb hp
  · exact .of_faulted (hq ▸ rfl) hb

theorem continueString_settlesIn (bytesOf : Word → List Byte) {resume : Word → InProgress}
    (hw : ∀ a, (resume a).isString = true) (a : Word) (hr : s.runState = .running) :
    SettlesIn (continueString bytesOf resume a s) := by
  have hframe := (stringLoop_frame bytesOf Config.stringBurst a s).1
  unfold continueString
  cases h : stringLoop bytesOf Config.stringBurst a s with
  | done t => exact flushAndFinish_settlesIn t
  | fatal r t => exact .raiseFatal r
  | more b t =>
    rw [h] at hframe
    have hdec : (resume b).Decimal := fun ds hds => by
      have := hds ▸ hw b
      cases this
    exact .next (.of_call (hframe.runState.trans hr) hdec fun hno => by simp [hw b] at hno)

section
variable (hr : s.runState = .running) (hp : s.outPending = [])
include hr hp

theorem onByte_settlesIn {w : InProgress} (hw : w.Decimal) {k : Byte → State → Outcome}
    (hk : ∀ b rest, SettlesIn (k b (s.setInput rest))) : SettlesIn (onByte w k s) := by
  rcases onByte_cases w k s with ⟨b, rest, h⟩ | ⟨rest, h⟩ | h <;> rw [h]
  · exact hk b rest
  · exact .raiseFatal .io
  · exact .next (.of_call hr hw fun _ => hp)

theorem continueGetc_settlesIn : SettlesIn (continueGetc s) :=
  onByte_settlesIn hr hp (k := fun b s1 => .next (s1.writeReg .r0 (zext8 b)).trapDone) (fun _ h => by cases h)
    fun _ _ => .next (.of_flushed rfl hp)

theorem continueIn_settlesIn : SettlesIn (continueIn s) :=
  onByte_settlesIn hr hp (fun _ h => by cases h) fun _ _ => .andThen fun _ => flushAndFinish_settlesIn

theorem continueInU16_settlesIn {ds : List Nat} (hds : ∀ d ∈ ds, d ≤ 9) : SettlesIn (continueInU16 ds s) := by
  unfold continueInU16
  split
  next ds1 rest _ =>
    unfold parseInto
    split
    · exact .raiseFatal .parse
    · split
      · exact .raiseFatal .parse
      · exact .next (.of_flushed rfl hp)
  next => exact .raiseFatal .io
  next ds1 h =>
    have hdec : (InProgress.inU16 ds1).Decimal := by
      rintro _ ⟨⟩
      exact digitLoop_decimal h hds
    exact .next (.of_call hr hdec fun _ => hp)

/-- An instruction run with nothing left to flush and no call in progress. -/
theorem exec_settlesIn (hb : s.busy = none) (i : Instr) : SettlesIn (exec i s) := by
  by_cases hi : i ∈ trapCalls
  · simp only [trapCalls, List.mem_cons, List.not_mem_nil, or_false] at hi
    rcases hi with rfl | rfl | rfl | rfl | rfl | rfl | rfl | rfl
    · exact continueGetc_settlesIn (s := s.link) hr hp
    · exact .andThen fun _ => flushAndFinish_settlesIn
    · exact continueString_settlesIn (s := s.link) putsBytes (fun _ => rfl) _ hr
    · exact continueIn_settlesIn (s := s.link) hr hp
    · exact continueString_settlesIn (s := s.link) putspBytes (fun _ => rfl) _ hr
    · exact .next (.of_flushed hb hp)
    · exact continueInU16_settlesIn (s := s.link) hr hp nofun
    · exact .andThen fun _ => flushAndFinish_settlesIn
  · intro t h
    obtain ⟨hports, hrun⟩ := exec_of_not_trapCall h hi
    have hpend : t.outPending = s.outPending := congrArg (·.2.1) hports
    rcases hrun with ⟨-, hbusy⟩ | ⟨hfault, hbusy⟩
    · exact .of_flushed (hbusy.trans hb) (hpend.trans hp)
    · exact .of_faulted hfault hbusy

end

end

/-- A call that goes on, in a state that meets the invariant. -/
theorem resumeTrap_settlesIn {s : State} {w : InProgress} (hs : Inv s) (hr : s.runState = .running)
    (hb : s.busy = some w) : SettlesIn (resumeTrap w s) := by
  have hpend (hw : w.isString = false) : s.outPending = [] :=
    hs.outputSettled (hr ▸ rfl) fun v hv => Option.some.inj (hb.symm.trans hv) ▸ hw
  cases w with
  | getc => exact continueGetc_settlesIn hr (hpend rfl)
  | inp => exact continueIn_settlesIn hr (hpend rfl)
  | inU16 ds => exact continueInU16_settlesIn hr (hpend rfl) (hs.digitsDecimal ds hb)
  | puts a => exact continueString_settlesIn putsBytes (fun _ => rfl) a hr
  | putsp a => exact continueString_settlesIn putspBytes (fun _ => rfl) a hr

theorem Inv.settled {s : State} (h : Inv s) : Settled s := ⟨h.busyRunning, h.digitsDecimal, h.outputSettled⟩

theorem step_settlesIn {s : State} (hs : Inv s) : SettlesIn (step s) := by
  rcases step_cases s with ⟨-, hstep⟩ | ⟨hr, w, hb, hstep⟩ | ⟨hr, hb, w, s1, hm, hstep⟩ | ⟨-, -, s1, -, hstep⟩ <;>
    rw [hstep]
  · exact .next hs.settled
  · exact resumeTrap_settlesIn hs hr hb
  · have hframe := (memRead_ok hm).1
    have hpend : s.outPending = [] := hs.outputSettled (hr ▸ rfl) fun v hv => absurd (hb.symm.trans hv) nofun
    exact exec_settlesIn (s := s1.setPc (s1.pc + 1#16)) (hframe.runState.trans hr) (hframe.outPending.trans hpend)
      (hframe.busy.trans hb) (decode w)
  · exact .raiseFatal .io

end Machine

namespace Proofs

open Machine

/-- Settles O15: COND by `step_oneFlag`, memory since every effect keeps its form (`Does.memWf`), the rest by how a step
ends (`step_settlesIn`). -/
theorem everyStepKeepsTheInvariant : Obligations.EveryStepKeepsTheInvariant := by
  intro s t hs h
  obtain ⟨E, hlead⟩ := step_leads s
  have hwf := (hlead.reach h).rel (p := fun s t => s.mem.wf = true → t.mem.wf = true) (fun _ => id)
    (fun _ _ _ h1 h2 => h2 ∘ h1) fun _ _ _ _ hd => hd.memWf
  obtain ⟨hbusy, hdigits, hout⟩ := step_settlesIn hs t h
  exact ⟨step_oneFlag h hs.condOneHot, hwf hs.memCanonical, hbusy, hdigits, hout⟩

/-- Settles O16: Z is set, memory and the ports are empty, and no call is in progress. -/
theorem resetMeetsTheInvariant : Obligations.ResetMeetsTheInvariant :=
  ⟨.inr (.inl rfl), reset_mem_wf, fun h => absurd rfl h, nofun, fun _ _ => rfl⟩

/-- Settles O17: one flag is set after every step (`step_oneFlag`), so after a run (`runFor_keeps`). -/
theorem condAlwaysHoldsExactlyOneFlag : Obligations.CondAlwaysHoldsExactlyOneFlag := by
  have horder (c : Word) : OneFlag c ↔ (c = 0x0001#16 ∨ c = 0x0002#16 ∨ c = 0x0004#16) := by
    unfold OneFlag condN condZ condP
    tauto
  refine ⟨.inr (.inl rfl), fun n s hs => ?_⟩
  rw [← horder] at hs ⊢
  exact runFor_keeps (p := (OneFlag ·.cond)) (fun _ _ => step_oneFlag) n hs

/-- Settles O8, by induction on the length of the run. -/
theorem terminalStatesNeverChange : Obligations.TerminalStatesNeverChange := by
  intro s n hs
  have hstep := step_of_not_running hs
  refine ⟨hstep, ?_⟩
  induction n with
  | zero => rfl
  | succ n ih => simpa only [runFor, hstep] using ih

end Proofs
end Sys2Proof
end

section
/-! PROOFS. The family 30_encoding.md: the decoder against the encoder (O1 to O4, O12). A word is the concatenation of
its fields, and a field of a concatenation is found by dropping the parts below it. -/

namespace Sys2Proof

/-! ## Fields and concatenations -/

section
variable {n m k len : Nat}

/-- The field at the bottom of a concatenation. -/
theorem field_low (hi : BitVec n) (lo : BitVec m) : BitVec.extractLsb' 0 m (hi ++ lo) = lo :=
  (BitVec.extractLsb'_append_eq_of_add_le (Nat.zero_add m).le).trans BitVec.extractLsb'_eq_self

/-- A part put below a word moves its fields up. -/
theorem field_above {x : BitVec n} {f : BitVec len} (h : BitVec.extractLsb' k len x = f) (lo : BitVec m) :
    BitVec.extractLsb' (k + m) len (x ++ lo) = f := by
  rw [BitVec.extractLsb'_append_eq_of_le (Nat.le_add_left m k), Nat.add_sub_cancel, h]

/-- Two concatenations agree under a mask if their parts do. -/
theorem append_and_congr {x x' p : BitVec n} {y y' q : BitVec m} (h : x &&& p = x' &&& p) (h' : y &&& q = y' &&& q) :
    (x ++ y) &&& (p ++ q) = (x' ++ y') &&& (p ++ q) := by
  rw [BitVec.and_append, BitVec.and_append, h, h']

theorem and_not_congr {x y k p : Word} (hp : ~~~k = p) (h : x &&& p = y &&& p) : x &&& ~~~k = y &&& ~~~k := hp ▸ h

/-- Any two words agree under the empty mask. -/
theorem and_zero_congr (x y : BitVec n) : x &&& 0#n = y &&& 0#n := by simp

end

section
variable (w : Word)

/-- A field and the one just below it are one field. -/
theorem field_append_field (hi lo len : Nat) {len' : Nat} (h : hi = lo + len) :
    w.field hi len' ++ w.field lo len = w.field lo (len' + len) :=
  BitVec.extractLsb'_append_extractLsb'_eq_extractLsb' h

theorem field_whole : w.field 0 16 = w := BitVec.extractLsb'_eq_self

theorem field_one (i : Nat) : w.field i 1 = BitVec.ofBool (w.getLsbD i) := by
  ext j hj
  obtain rfl : j = 0 := by omega
  simp [Word.field]

theorem getElem_of_field_one {i : Nat} {b : Bool} (h : w.field i 1 = BitVec.ofBool b) (hi : i < 16 := by decide) :
    w[i] = b := by
  have hb := congrArg (BitVec.getLsbD · 0) h
  simpa [field_one, hi] using hb

end

/-! ## The layouts of the formats (30_encoding.md R76 to R85) -/

section
variable {w : Word} {c : BitVec 4} {a b d : BitVec 3}

theorem fields_opcode_bits {r : BitVec 12} (h : w = c ++ r) : w.field 12 4 = c ∧ w.field 0 12 = r :=
  h ▸ ⟨field_above BitVec.extractLsb'_eq_self r, field_low c r⟩

theorem fields_reg_off9 {o : BitVec 9} (h : w = c ++ a ++ o) :
    w.field 12 4 = c ∧ w.field 9 3 = a ∧ w.field 0 9 = o :=
  h ▸ ⟨field_above (field_above BitVec.extractLsb'_eq_self a) o, field_above (field_low c a) o, field_low _ o⟩

theorem fields_reg_reg_off6 {o : BitVec 6} (h : w = c ++ a ++ b ++ o) :
    w.field 12 4 = c ∧ w.field 9 3 = a ∧ w.field 6 3 = b ∧ w.field 0 6 = o :=
  h ▸ ⟨field_above (field_above (field_above BitVec.extractLsb'_eq_self a) b) o,
    field_above (field_above (field_low c a) b) o, field_above (field_low _ b) o, field_low _ o⟩

theorem fields_reg_reg_imm5 {f : BitVec 1} {i : BitVec 5} (h : w = c ++ a ++ b ++ f ++ i) :
    w.field 12 4 = c ∧ w.field 9 3 = a ∧ w.field 6 3 = b ∧ w.field 5 1 = f ∧ w.field 0 5 = i :=
  h ▸ ⟨field_above (field_above (field_above (field_above BitVec.extractLsb'_eq_self a) b) f) i,
    field_above (field_above (field_above (field_low c a) b) f) i, field_above (field_above (field_low _ b) f) i,
    field_above (field_low _ f) i, field_low _ i⟩

theorem fields_reg_reg_reg {f : BitVec 1} {x : BitVec 2} (h : w = c ++ a ++ b ++ f ++ x ++ d) :
    w.field 12 4 = c ∧ w.field 9 3 = a ∧ w.field 6 3 = b ∧ w.field 5 1 = f ∧ w.field 0 3 = d :=
  h ▸ ⟨field_above (field_above (field_above (field_above (field_above BitVec.extractLsb'_eq_self a) b) f) x) d,
    field_above (field_above (field_above (field_above (field_low c a) b) f) x) d,
    field_above (field_above (field_above (field_low _ b) f) x) d, field_above (field_above (field_low _ f) x) d,
    field_low _ d⟩

theorem fields_nzp_off9 {n z p : BitVec 1} {o : BitVec 9} (h : w = c ++ n ++ z ++ p ++ o) :
    w.field 12 4 = c ∧ w.field 11 1 = n ∧ w.field 10 1 = z ∧ w.field 9 1 = p ∧ w.field 0 9 = o :=
  h ▸ ⟨field_above (field_above (field_above (field_above BitVec.extractLsb'_eq_self n) z) p) o,
    field_above (field_above (field_above (field_low c n) z) p) o, field_above (field_above (field_low _ z) p) o,
    field_above (field_low _ p) o, field_low _ o⟩

theorem fields_flag_off11 {f : BitVec 1} {o : BitVec 11} (h : w = c ++ f ++ o) :
    w.field 12 4 = c ∧ w.field 11 1 = f ∧ w.field 0 11 = o :=
  h ▸ ⟨field_above (field_above BitVec.extractLsb'_eq_self f) o, field_above (field_low c f) o, field_low _ o⟩

theorem fields_flag_base {f : BitVec 1} {x : BitVec 2} {y : BitVec 6} (h : w = c ++ f ++ x ++ b ++ y) :
    w.field 12 4 = c ∧ w.field 11 1 = f ∧ w.field 6 3 = b :=
  h ▸ ⟨field_above (field_above (field_above (field_above BitVec.extractLsb'_eq_self f) x) b) y,
    field_above (field_above (field_above (field_low c f) x) b) y, field_above (field_low _ b) y⟩

theorem fields_vector {x : BitVec 4} {v : Byte} (h : w = c ++ x ++ v) : w.field 12 4 = c ∧ w.field 0 8 = v :=
  h ▸ ⟨field_above (field_above BitVec.extractLsb'_eq_self x) v, field_low _ v⟩

end

/-! ## Decoding what was encoded -/

theorem decode_encodeTrap (v : Byte) : decode (encodeTrap v) = decodeTrap trapVectors v := by
  obtain ⟨hc, hv⟩ := fields_vector (w := encodeTrap v) rfl
  simp [decode, decodeWith, hc, hv]

theorem decodeTrap_unsupported {t : TrapVectors} {v : Byte} (h : supportsVector t v = false) :
    decodeTrap t v = .trapUnsupported v := by
  simp only [supportsVector, vectorList, List.contains_eq_mem, List.mem_cons, not_or, decide_eq_false_iff_not] at h
  simp [decodeTrap, h]

/-- The decoder reads the fields of the format back; for a TRAP row they are the vector, looked up again. -/
theorem decode_encode {i : Instr} (h : i.wf = true) : decode (encode i) = i := by
  generalize hw : encode i = w
  cases i with
  | addReg _ _ _ | andReg _ _ _ =>
    obtain ⟨hc, h9, h6, h5, h0⟩ := fields_reg_reg_reg hw.symm
    simp [decode, decodeWith, Word.reg, hc, h9, h6, h0, getElem_of_field_one (b := false) w h5]
  | addImm _ _ _ | andImm _ _ _ =>
    obtain ⟨hc, h9, h6, h5, h0⟩ := fields_reg_reg_imm5 hw.symm
    simp [decode, decodeWith, Word.reg, hc, h9, h6, h0, getElem_of_field_one (b := true) w h5]
  | notReg _ _ | ldr _ _ _ | str _ _ _ | jmp _ =>
    obtain ⟨hc, h9, h6, h0⟩ := fields_reg_reg_off6 hw.symm
    simp [decode, decodeWith, Word.reg, hc, h9, h6, h0]
  | ld _ _ | ldi _ _ | lea _ _ | st _ _ | sti _ _ =>
    obtain ⟨hc, h9, h0⟩ := fields_reg_off9 hw.symm
    simp [decode, decodeWith, Word.reg, hc, h9, h0]
  | br _ _ _ _ =>
    obtain ⟨hc, hn, hz, hp, h0⟩ := fields_nzp_off9 hw.symm
    simp [decode, decodeWith, hc, getElem_of_field_one w hn, getElem_of_field_one w hz,
      getElem_of_field_one w hp, h0]
  | jsr _ =>
    obtain ⟨hc, hf, h0⟩ := fields_flag_off11 hw.symm
    simp [decode, decodeWith, hc, getElem_of_field_one (b := true) w hf, h0]
  | jsrr _ =>
    obtain ⟨hc, hf, h6⟩ := fields_flag_base hw.symm
    simp [decode, decodeWith, Word.reg, hc, getElem_of_field_one (b := false) w hf, h6]
  | rtiReserved _ | unusedReserved _ =>
    obtain ⟨hc, h0⟩ := fields_opcode_bits hw.symm
    simp [decode, decodeWith, hc, h0]
  | trapUnsupported v =>
    subst hw
    exact (decode_encodeTrap v).trans (decodeTrap_unsupported (by simpa [Instr.wf] using h))
  | trapGetc | trapOut | trapPuts | trapIn | trapPutsp | trapHalt | trapInU16 | trapOutU16 =>
    subst hw
    exact (decode_encodeTrap _).trans rfl

/-! ## The ignored bits -/

/-- No row ignores a bit of the opcode. -/
theorem ignoredBits_opcode (i : Instr) : (ignoredBits i).field 12 4 = 0#4 := by
  unfold ignoredBits
  split <;> decide

theorem ignoredBits_decodeTrap (t : TrapVectors) (v : Byte) : ignoredBits (decodeTrap t v) = 0x0F00#16 := by
  unfold decodeTrap
  split_ifs <;> rfl

/-- Bits flipped under a mask leave alone a field that the mask does not meet. -/
theorem field_xor_and {w m mask : Word} {lo len : Nat} (h : mask.field lo len = 0#len) :
    (w ^^^ (m &&& mask)).field lo len = w.field lo len := by
  unfold Word.field at h ⊢
  rw [BitVec.extractLsb'_xor, BitVec.extractLsb'_and, h, BitVec.and_zero, BitVec.xor_zero]

theorem getLsbD_xor_and {w m mask : Word} {i : Nat} (h : mask.getLsbD i = false) :
    (w ^^^ (m &&& mask)).getLsbD i = w.getLsbD i := by
  simp [h]

/-- A word and the same word with ignored bits flipped decode alike: every field a row has lies outside its mask. -/
theorem decode_xor_ignoredBits (w m : Word) : decode (w ^^^ (m &&& ignoredBits (decode w))) = decode w := by
  generalize hk : ignoredBits (decode w) = k
  have hop : (w ^^^ (m &&& k)).field 12 4 = w.field 12 4 := field_xor_and (hk ▸ ignoredBits_opcode _)
  by_cases hnone : k = 0x0000#16
  · simp [hnone]
  · unfold decode decodeWith at hk ⊢
    rw [hop]
    generalize Opcode.ofCode (w.field 12 4) = o at hk ⊢
    cases o with
    | add | and =>
      cases h5 : w.getLsbD 5 with
      | true =>
        simp only [h5] at hk
        exact absurd hk.symm hnone
      | false =>
        obtain rfl : 0x0018#16 = k := by
          simp only [h5] at hk
          exact hk
        simp (disch := decide) only [Word.reg, field_xor_and, getLsbD_xor_and, h5]
        rfl
    | jsr =>
      cases h11 : w.getLsbD 11 with
      | true =>
        simp only [h11] at hk
        exact absurd hk.symm hnone
      | false =>
        obtain rfl : 0x063F#16 = k := by
          simp only [h11] at hk
          exact hk
        simp (disch := decide) only [Word.reg, field_xor_and, getLsbD_xor_and, h11]
        rfl
    | not =>
      obtain rfl : 0x003F#16 = k := hk
      simp (disch := decide) only [Word.reg, field_xor_and]
    | jmp =>
      obtain rfl : 0x0E3F#16 = k := hk
      simp (disch := decide) only [Word.reg, field_xor_and]
    | trap =>
      obtain rfl : 0x0F00#16 = k := (ignoredBits_decodeTrap _ _).symm.trans hk
      simp (disch := decide) only [field_xor_and]
    | _ => exact absurd hk.symm hnone

/-! ## Encoding what was decoded -/

section
variable (w : Word)

/-- A word is its fields, in each of the layouts. -/
theorem join_opcode_bits : w.field 12 4 ++ w.field 0 12 = w := by
  rw [field_append_field w 12 0 12 rfl]
  exact field_whole w

theorem join_reg_off9 : w.field 12 4 ++ w.field 9 3 ++ w.field 0 9 = w := by
  rw [field_append_field w 12 9 3 rfl, field_append_field w 9 0 9 rfl]
  exact field_whole w

theorem join_reg_reg_off6 : w.field 12 4 ++ w.field 9 3 ++ w.field 6 3 ++ w.field 0 6 = w := by
  rw [field_append_field w 12 9 3 rfl, field_append_field w 9 6 3 rfl, field_append_field w 6 0 6 rfl]
  exact field_whole w

theorem join_reg_reg_imm5 : w.field 12 4 ++ w.field 9 3 ++ w.field 6 3 ++ w.field 5 1 ++ w.field 0 5 = w := by
  rw [field_append_field w 12 9 3 rfl, field_append_field w 9 6 3 rfl, field_append_field w 6 5 1 rfl,
    field_append_field w 5 0 5 rfl]
  exact field_whole w

theorem join_reg_reg_reg :
    w.field 12 4 ++ w.field 9 3 ++ w.field 6 3 ++ w.field 5 1 ++ w.field 3 2 ++ w.field 0 3 = w := by
  rw [field_append_field w 12 9 3 rfl, field_append_field w 9 6 3 rfl, field_append_field w 6 5 1 rfl,
    field_append_field w 5 3 2 rfl, field_append_field w 3 0 3 rfl]
  exact field_whole w

theorem join_nzp_off9 :
    w.field 12 4 ++ w.field 11 1 ++ w.field 10 1 ++ w.field 9 1 ++ w.field 0 9 = w := by
  rw [field_append_field w 12 11 1 rfl, field_append_field w 11 10 1 rfl, field_append_field w 10 9 1 rfl,
    field_append_field w 9 0 9 rfl]
  exact field_whole w

theorem join_flag_off11 : w.field 12 4 ++ w.field 11 1 ++ w.field 0 11 = w := by
  rw [field_append_field w 12 11 1 rfl, field_append_field w 11 0 11 rfl]
  exact field_whole w

theorem join_flag_base :
    w.field 12 4 ++ w.field 11 1 ++ w.field 9 2 ++ w.field 6 3 ++ w.field 0 6 = w := by
  rw [field_append_field w 12 11 1 rfl, field_append_field w 11 9 2 rfl, field_append_field w 9 6 3 rfl,
    field_append_field w 6 0 6 rfl]
  exact field_whole w

theorem join_vector : w.field 12 4 ++ w.field 8 4 ++ w.field 0 8 = w := by
  rw [field_append_field w 12 8 4 rfl, field_append_field w 8 0 8 rfl]
  exact field_whole w

end

theorem encode_decodeTrap (v : Byte) : encode (decodeTrap trapVectors v) = encodeTrap v := by
  unfold decodeTrap
  split_ifs <;> simp [encode, *]

theorem decodeTrap_wf (v : Byte) : (decodeTrap trapVectors v).wf = true := by
  unfold decodeTrap
  split_ifs <;> simp [Instr.wf, supportsVector, vectorList, *]

theorem decode_wf (w : Word) : (decode w).wf = true := by
  unfold decode decodeWith
  cases Opcode.ofCode (w.field 12 4) with
  | trap => exact decodeTrap_wf _
  | add | and | jsr => dsimp only; split <;> rfl
  | _ => rfl

theorem reg_bits (w : Word) (lo : Nat) : (w.reg lo).bits = w.field lo 3 := Reg.bits_ofBits _

/-- The canonical word of what a word decodes to has the word's bits wherever the row uses them. -/
theorem encode_decode_and (w : Word) :
    encode (decode w) &&& ~~~ignoredBits (decode w) = w &&& ~~~ignoredBits (decode w) := by
  unfold decode decodeWith
  cases ho : Opcode.ofCode (w.field 12 4) <;> rw [Opcode.ofCode_eq_iff] at ho
  case ld | ldi | lea | st | sti =>
    have hw := ho ▸ reg_bits w 9 ▸ join_reg_off9 w
    exact congrArg (· &&& _) hw
  case ldr | str =>
    have hw := ho ▸ reg_bits w 9 ▸ reg_bits w 6 ▸ join_reg_reg_off6 w
    exact congrArg (· &&& _) hw
  case rti | unused =>
    have hw := ho ▸ join_opcode_bits w
    exact congrArg (· &&& _) hw
  case br =>
    have hw := join_nzp_off9 w
    rw [ho, field_one, field_one, field_one] at hw
    exact congrArg (· &&& _) hw
  case not =>
    have hw := ho ▸ reg_bits w 9 ▸ reg_bits w 6 ▸ join_reg_reg_off6 w
    refine and_not_congr (k := 0x003F#16) (p := 0x3FF#10 ++ 0#6) (by decide) (.trans ?_ (congrArg (· &&& _) hw))
    exact append_and_congr rfl (and_zero_congr _ _)
  case jmp =>
    have hw := ho ▸ reg_bits w 6 ▸ join_reg_reg_off6 w
    refine and_not_congr (k := 0x0E3F#16) (p := 0xF#4 ++ 0#3 ++ 7#3 ++ 0#6) (by decide)
      (.trans ?_ (congrArg (· &&& _) hw))
    exact append_and_congr (append_and_congr (append_and_congr rfl (and_zero_congr _ _)) rfl) (and_zero_congr _ _)
  case add | and =>
    cases h5 : w.getLsbD 5 with
    | true =>
      have hw := join_reg_reg_imm5 w
      rw [ho, ← reg_bits, ← reg_bits, field_one, h5] at hw
      exact congrArg (· &&& _) hw
    | false =>
      have hw := join_reg_reg_reg w
      rw [ho, ← reg_bits, ← reg_bits, ← reg_bits, field_one, h5] at hw
      refine and_not_congr (k := 0x0018#16) (p := 0x7FF#11 ++ 0#2 ++ 7#3) (by decide)
        (.trans ?_ (congrArg (· &&& _) hw))
      exact append_and_congr (append_and_congr rfl (and_zero_congr _ _)) rfl
  case jsr =>
    cases h11 : w.getLsbD 11 with
    | true =>
      have hw := join_flag_off11 w
      rw [ho, field_one, h11] at hw
      exact congrArg (· &&& _) hw
    | false =>
      have hw := join_flag_base w
      rw [ho, ← reg_bits, field_one, h11] at hw
      refine and_not_congr (k := 0x063F#16) (p := 0x1F#5 ++ 0#2 ++ 7#3 ++ 0#6) (by decide)
        (.trans ?_ (congrArg (· &&& _) hw))
      exact append_and_congr (append_and_congr (append_and_congr rfl (and_zero_congr _ _)) rfl) (and_zero_congr _ _)
  case trap =>
    dsimp only
    rw [ignoredBits_decodeTrap, encode_decodeTrap]
    have hw := ho ▸ join_vector w
    refine and_not_congr (p := 0xF#4 ++ 0#4 ++ 0xFF#8) (by decide) (.trans ?_ (congrArg (· &&& _) hw))
    exact append_and_congr (append_and_congr rfl (and_zero_congr _ _)) rfl

namespace Proofs

open Machine

/-- Settles O1: each format is a layout of fields, and the decoder reads those fields back (`decode_encode`). -/
theorem decodeOfEncodeIsTheInstruction : Obligations.DecodeOfEncodeIsTheInstruction := fun _ => decode_encode

/-- Settles O2: `decode_wf` and `encode_decode_and`. -/
theorem encodeOfDecodeKeepsEveryUsedBit : Obligations.EncodeOfDecodeKeepsEveryUsedBit :=
  fun w => ⟨decode_wf w, encode_decode_and w⟩

/-- Settles O3: `decode_xor_ignoredBits`. -/
theorem ignoredBitsNeverChangeTheInstruction : Obligations.IgnoredBitsNeverChangeTheInstruction :=
  decode_xor_ignoredBits

/-- Settles O4: thirteen closed words, each decoded by evaluation. -/
theorem writtenOutWordsDecode : Obligations.WrittenOutWordsDecode := by
  unfold Obligations.WrittenOutWordsDecode
  decide

/-- Settles O12: the rows of the three invalid kinds of word (Laws/Decode), whose meaning is to raise DECODE
(`exec_of_valid_eq_false`). -/
theorem reservedWordsRaiseDecode : Obligations.ReservedWordsRaiseDecode := by
  refine ⟨fun w s h => ⟨decode_rtiReserved h, ?_⟩, fun w s h => ⟨decode_unusedReserved h, ?_⟩,
    fun w s h hv => ⟨decode_trapUnsupported h ?_, ?_⟩⟩
  · exact exec_of_valid_eq_false rfl s
  · exact exec_of_valid_eq_false rfl s
  · simpa [supportsVector, Word.field] using hv
  · exact exec_of_valid_eq_false rfl s

end Proofs
end Sys2Proof
end

section
/-! PROOFS. The read path (O31) and what rests on it: a fetch at KBSR_ADDR (O7), the round trip of STI and LDI (O39), a
store into the next word (O40); JSRR (O44), HALT (O52) and the reset values (O59). -/

namespace Sys2Proof
namespace Machine

open Claims

/-! ## The round trip through a pointer cell -/

/-- A result read back is the value. -/
theorem readReg_withResult (s : State) (d : Reg) (v : Word) : (withResult s d v).readReg d = v := by
  simp [withResult, State.readReg]

/-! ## The word x0000 -/

/-- The word x0000 is a branch that tests no flag (30_encoding.md R88). -/
theorem exec_decode_zero (s : State) : exec (decode 0x0000#16) s = .next s := by
  have hd : decode 0x0000#16 = .br false false false 0#9 := by decide
  have hmask : branchMask false false false = 0x0000#16 := by decide
  rw [hd, exec_br, hmask, BitVec.zero_and, if_neg (not_not_intro rfl)]

/-! ## JSRR -/

theorem jsrrWith_afterLink (b : Reg) (s : State) :
    jsrrWith .afterLink b s =
      { s with regs := s.regs.write .r7 s.pc, pc := if b = .r7 then s.pc else s.readReg b } := by
  have hread : s.link.readReg b = if b = .r7 then s.pc else s.readReg b := State.readReg_writeReg s .r7 b s.pc
  rw [← hread]
  rfl

end Machine

namespace Proofs

open Machine Claims

/-- Settles O31: the laws of the read path, and the cells after its writes (`State.cell_memWrite`). -/
theorem readsOfKbsrPollAndOtherReadsAreLookups : Obligations.ReadsOfKbsrPollAndOtherReadsAreLookups := by
  refine ⟨fun a s ha => memRead_plain ha s, fun s b rest hi => ?_, fun s rest hi => ?_, fun s rest hi => ?_⟩
  · exact ⟨_, memRead_kbsr_byte hi, by simp [kbdrAddr_ne_kbsrAddr.symm]; rfl, by simp; rfl, rfl,
      fun a h1 h2 => by simp [h1, h2]⟩
  · rcases hi with hi | ⟨hi, rfl⟩
    · exact ⟨_, memRead_kbsr_noByte hi, by simp, rfl, fun a ha => by simp [ha]⟩
    · exact ⟨_, memRead_kbsr_empty hi, by simp, hi, fun a ha => by simp [ha]⟩
  · exact memRead_kbsr_error hi

/-- Settles O7: what the poll answers (Laws/Ops), run as a word: x8000 is an invalid row, x0000 a branch on no flag. -/
theorem fetchAtKbsrRunsThePolledValue : Obligations.FetchAtKbsrRunsThePolledValue := by
  intro s hr hb hpc
  refine ⟨fun b rest hi => ?_, fun rest hi => ?_, fun hi => ?_, fun rest hi => ?_⟩
  · rw [step_of_memRead_ok hr hb (hpc ▸ memRead_kbsr_byte hi), exec_of_valid_eq_false rfl, ← hpc]
    rfl
  · rw [step_of_memRead_ok hr hb (hpc ▸ memRead_kbsr_noByte hi), exec_decode_zero, ← hpc]
    rfl
  · rw [step_of_memRead_ok hr hb (hpc ▸ memRead_kbsr_empty hi), exec_decode_zero, ← hpc]
    rfl
  · rw [step_of_memRead_fatal hr hb (hpc ▸ memRead_kbsr_error hi)]
    rfl

/-- Settles O39: STI leaves the pointer cell and every register, and LDI reads the cell just written. -/
theorem stiThenLdiGivesTheValueBack : Obligations.StiThenLdiGivesTheValueBack := by
  intro s t r d o o2 q hptr hdiff htarget hq h
  obtain rfl : s.memWrite (s.cell (pcRelative o s)) (s.readReg r) = t :=
    Host.Outcome.next.inj ((exec_sti_of_memRead_ok (memRead_plain hptr s)).symm.trans h)
  change ∃ u, exec (.ldi d o2) ((s.memWrite (s.cell (pcRelative o s)) (s.readReg r)).setPc q) = .next u ∧ _
  generalize hu : (s.memWrite (s.cell (pcRelative o s)) (s.readReg r)).setPc q = u
  have hpointer : memRead (u.pc + o2.signExtend 16) u = .ok (s.cell (pcRelative o s)) u := by
    rw [← hu, State.setPc_pc, hq, memRead_plain hptr]
    simp [hdiff.symm]
  have htargetCell : u.cell (s.cell (pcRelative o s)) = s.readReg r := by simp [← hu]
  refine ⟨_, (exec_ldi_of_memRead_ok hpointer).trans (loadInto_plain htarget), ?_⟩
  rw [readReg_withResult, htargetCell]

/-- Settles O40: the first step writes the register into the next word (`exec_st`), the second fetches it. -/
theorem storeIntoTheNextWordIsExecuted : Obligations.StoreIntoTheNextWordIsExecuted := by
  intro s r hr hb hpc hpc1 hd
  have hstore : step s = .next ((s.setPc (s.pc + 1#16)).memWrite (s.pc + 1#16) (s.readReg r)) := by
    rw [step_plain hr hb hpc, hd, exec_st]
    simp
  refine ⟨_, hstore, (step_plain (s := (s.setPc (s.pc + 1#16)).memWrite _ _) hr hb hpc1).trans ?_⟩
  have hnext : s.pc + 2#16 = s.pc + 1#16 + 1#16 := by rw [BitVec.add_assoc]; rfl
  rw [State.memWrite_pc, State.setPc_pc, State.cell_memWrite, if_pos rfl, hnext]
  rfl

/-- Settles O44: the row of opcode x4 with bit 11 clear (`decode_jsrr`), and the two orders of base and link. -/
theorem jsrrLinksAndJumpsToItsBase : Obligations.JsrrLinksAndJumpsToItsBase := by
  refine ⟨fun w s h => ⟨decode_jsrr h, ?_⟩, fun order b s hb => ?_⟩
  · have horder : jsrrBaseSample = .afterLink := rfl
    simp only [horder, and_true]
    exact congrArg _ (jsrrWith_afterLink _ s)
  · cases order with
    | afterLink => rw [jsrrWith_afterLink, if_neg hb]
    | beforeLink => rfl

/-- Settles O52: the row of vector x25 (`decode_trapHalt`), and its meaning. -/
theorem haltSetsTheHaltState : Obligations.HaltSetsTheHaltState :=
  ⟨fun _ => decode_trapHalt, fun _ => rfl⟩

/-- Settles O59: the values of `State.reset`; its memory lists no cell. -/
theorem resetLeavesTheStatedValues : Obligations.ResetLeavesTheStatedValues := by
  refine ⟨fun r => ?_, rfl, rfl, rfl, fun a => rfl⟩
  cases r <;> rfl

end Proofs
end Sys2Proof
end

section
/-! PROOFS. The family 45_trap.md, calls that read or write single bytes: GETC, OUT, IN (O45, O46, O51), and waiting for
input (O56, O57). Said once for every call: what a blocking read takes, and how bytes written and one flush end a call. -/

namespace Sys2Proof
namespace Machine

open Claims

/-! ## A blocking read -/

section
variable {pre : List InEvent} (hpre : ∀ e ∈ pre, e = .noByte)
include hpre

/-- A blocking read waits past "no byte yet" (10_state.md R36). -/
theorem inReadFrom_append_of_noByte (es : List InEvent) (s : State) : inReadFrom (pre ++ es) s = inReadFrom es s := by
  induction pre with
  | nil => rfl
  | cons e pre ih =>
    obtain rfl : e = .noByte := hpre e List.mem_cons_self
    exact ih fun e he => hpre e (List.mem_cons_of_mem _ he)

section
variable {w : InProgress} {k : Byte → State → Outcome} {s : State} {rest : List InEvent}

theorem onByte_of_byte {b : Byte} (hi : s.input = pre ++ .byte b :: rest) :
    onByte w k s = k b (s.setInput rest) := by
  simp [onByte, inRead, hi, inReadFrom_append_of_noByte hpre, inReadFrom]

theorem onByte_of_error (hi : s.input = pre ++ .error :: rest) :
    onByte w k s = .next ((s.setInput rest).raiseFatal .io) := by
  simp [onByte, inRead, hi, inReadFrom_append_of_noByte hpre, inReadFrom]

end

end

theorem onByte_of_noByte {w : InProgress} {k : Byte → State → Outcome} {s : State} (hi : ∀ e ∈ s.input, e = .noByte) :
    onByte w k s = .next ((s.setInput []).setBusy (some w)) := by
  have hread := inReadFrom_append_of_noByte hi [] s
  rw [List.append_nil] at hread
  simp [onByte, inRead, hread, inReadFrom]

/-! ## Bytes written and flushed -/

theorem outOk_add {m n : Nat} {s : State} :
    outOk (m + n) s ↔ outOk m s ∧ outOk n (s.setOutAnswers (s.outAnswers.drop m)) := by
  simp [outOk, List.take_add, or_imp, forall_and]

theorem outOk_setOutPending {n : Nat} {s : State} (h : outOk n s) (bs : List Byte) : outOk n (s.setOutPending bs) := h

/-- A host that accepts each of some bytes. -/
theorem outWriteAll_of_outOk {bs : List Byte} {s : State} (h : outOk bs.length s) :
    outWriteAll bs s =
      .ok () ((s.setOutAnswers (s.outAnswers.drop bs.length)).setOutPending (s.outPending ++ bs)) := by
  induction bs generalizing s with
  | nil =>
    rw [List.length_nil, List.drop_zero, List.append_nil]
    rfl
  | cons b rest ih =>
    rw [List.length_cons, Nat.add_comm, outOk_add] at h
    obtain ⟨hb, hrest⟩ := h
    simp only [outWriteAll, outWrite_of_outOk b hb]
    rw [ih (outOk_setOutPending hrest _)]
    simp [Nat.add_comm, State.setOutAnswers, State.setOutPending]

/-- Write some bytes, flush them and end the call. -/
def writeAndFinish (bs : List Byte) (s : State) : Outcome := (outWriteAll bs s).andThen fun _ => flushAndFinish

theorem outWriteAll_singleton (b : Byte) (s : State) : outWriteAll [b] s = outWrite b s := by
  unfold outWriteAll outWriteAll
  cases outWrite b s <;> rfl

theorem flushAndFinish_of_outOk {s : State} (h : outOk 1 s) :
    flushAndFinish s = .next { s with
      outAnswers := s.outAnswers.drop 1, outPending := [], outDelivered := s.outDelivered ++ s.outPending,
      busy := none } := by
  rw [flushAndFinish, outFlush_of_outOk h]
  rfl

theorem writeAndFinish_of_outOk {bs : List Byte} {s : State} (h : outOk (bs.length + 1) s) :
    writeAndFinish bs s = .next { s with
      outAnswers := s.outAnswers.drop (bs.length + 1), outPending := [],
      outDelivered := s.outDelivered ++ (s.outPending ++ bs), busy := none } := by
  obtain ⟨hbs, hflush⟩ := outOk_add.mp h
  rw [writeAndFinish, outWriteAll_of_outOk hbs, Res.andThen_ok,
    flushAndFinish_of_outOk (outOk_setOutPending hflush _)]
  simp [State.setOutAnswers, State.setOutPending]

theorem writeAndFinish_cons (b : Byte) (bs : List Byte) (s : State) :
    writeAndFinish (b :: bs) s = (outWrite b s).andThen fun _ => writeAndFinish bs := by
  unfold writeAndFinish
  rw [outWriteAll]
  cases outWrite b s <;> rfl

/-- The first error, to a byte or to the flush, ends the run with the bytes before it written. -/
theorem writeAndFinish_of_error {bs : List Byte} {s : State} {k : Nat} {rest : List PortAnswer} (hk : k ≤ bs.length)
    (h : s.outAnswers = List.replicate k .ok ++ .error :: rest) :
    writeAndFinish bs s =
      .next (faulted { s with outAnswers := rest, outPending := s.outPending ++ bs.take k } .io) := by
  induction k generalizing bs s with
  | zero =>
    rw [List.take_zero, List.append_nil]
    cases bs with
    | nil =>
      rw [writeAndFinish, outWriteAll, Res.andThen_ok, flushAndFinish, outFlush_of_error h]
      rfl
    | cons b bs =>
      rw [writeAndFinish_cons, outWrite_of_error b h]
      rfl
  | succ k ih =>
    cases bs with
    | nil => simp at hk
    | cons b bs =>
      have hok : outOk 1 s := by simp [outOk, h, List.replicate_succ]
      rw [writeAndFinish_cons, outWrite_of_outOk b hok, Res.andThen_ok,
        ih (by simpa using hk) (by simp [h, List.replicate_succ])]
      simp [State.setOutAnswers, State.setOutPending]

/-! ## The calls -/

theorem exec_trapGetc (s : State) :
    exec .trapGetc s = onByte .getc (fun b s1 => .next (s1.writeReg .r0 (zext8 b)).trapDone) (linked s) := rfl

theorem exec_trapOut (s : State) : exec .trapOut s = writeAndFinish [(s.readReg .r0).extractLsb' 0 8] (linked s) := by
  unfold writeAndFinish
  rw [outWriteAll_singleton]
  rfl

theorem continueIn_eq (s : State) :
    continueIn s = onByte .inp (fun b s1 => writeAndFinish [b] (s1.writeReg .r0 (zext8 b))) s := by
  unfold writeAndFinish
  simp only [outWriteAll_singleton]
  rfl

theorem exec_trapIn (s : State) :
    exec .trapIn s = onByte .inp (fun b s1 => writeAndFinish [b] (s1.writeReg .r0 (zext8 b))) (linked s) :=
  continueIn_eq (linked s)

theorem exec_trapOutU16 (s : State) :
    exec .trapOutU16 s = writeAndFinish (decimalBytes (s.readReg .r0)) (linked s) := rfl

/-! ## A call that waits -/

theorem inReadFrom_setInput (es es' : List InEvent) (s : State) : inReadFrom es (s.setInput es') = inReadFrom es s := by
  induction es with
  | nil => rfl
  | cons e es ih =>
    cases e with
    | noByte => exact ih
    | byte b | error => rfl

/-- A meaning that ends by setting the call in progress, whatever was in progress before. -/
def IgnoresBusy (f : State → Outcome) : Prop := ∀ s w, f (s.setBusy w) = f s

theorem flushAndFinish_ignoresBusy : IgnoresBusy flushAndFinish := by
  intro s w
  rcases outOk_one_or_refuses s with h | ⟨rest, h⟩
  · rw [flushAndFinish_of_outOk h, flushAndFinish_of_outOk (s := s.setBusy w) h]
    rfl
  · rw [flushAndFinish, flushAndFinish, outFlush_of_error h, outFlush_of_error (s := s.setBusy w) h]
    rfl

theorem writeAndFinish_ignoresBusy (bs : List Byte) : IgnoresBusy (writeAndFinish bs) := by
  induction bs with
  | nil => exact flushAndFinish_ignoresBusy
  | cons b bs ih =>
    intro s w
    rw [writeAndFinish_cons, writeAndFinish_cons]
    rcases outOk_one_or_refuses s with h | ⟨rest, h⟩
    · rw [outWrite_of_outOk b h, outWrite_of_outOk b (s := s.setBusy w) h]
      exact ih ((s.setOutAnswers _).setOutPending _) w
    · rw [outWrite_of_error b h, outWrite_of_error b (s := s.setBusy w) h]
      rfl

/-- A read that had to wait, and is then given `es`, ends as if `es` had followed the answers it took. -/
theorem onByte_hostSupply {w : InProgress} {k : Byte → State → Outcome} (hk : ∀ b, IgnoresBusy (k b)) {s : State}
    (hi : ∀ e ∈ s.input, e = .noByte) (c : Option InProgress) (es : List InEvent) :
    onByte w k (((s.setInput []).setBusy c).hostSupply es) = onByte w k (s.hostSupply es) := by
  have hread (t : State) : inReadFrom (s.input ++ es) t = inReadFrom es t := inReadFrom_append_of_noByte hi es t
  have hleft : inRead (((s.setInput []).setBusy c).hostSupply es) = inReadFrom es (s.setBusy c) :=
    inReadFrom_setInput es es (s.setBusy c)
  have hright : inRead (s.hostSupply es) = inReadFrom es s :=
    (hread _).trans (inReadFrom_setInput es (s.input ++ es) s)
  unfold onByte
  rw [hleft, hright]
  rcases inReadFrom_uniform es with ⟨b, rest, h⟩ | ⟨rest, h⟩ | h <;> rw [h, h]
  · exact hk b (s.setInput rest) c
  · rfl
  · rfl

/-- The step of a call that waited and is then given `es`. -/
theorem step_waiting {s : State} (hr : s.runState = .running) (w : InProgress) (es : List InEvent) :
    step (((s.setInput []).setBusy (some w)).hostSupply es) =
      resumeTrap w (((s.setInput []).setBusy (some w)).hostSupply es) :=
  step_busy hr rfl

theorem digitLoop_append {es : List InEvent} {ds ds1 : List Nat} (h : digitLoop es ds = .waits ds1)
    (more : List InEvent) : digitLoop (es ++ more) ds = digitLoop more ds1 := by
  induction es generalizing ds with
  | nil =>
    cases h
    rfl
  | cons e es ih =>
    cases e with
    | noByte => exact ih h
    | error => cases h
    | byte b =>
      simp only [digitLoop, List.cons_append] at h ⊢
      split at h
      · cases h
      next hb =>
        rw [if_neg hb]
        split at h
        next hd =>
          rw [if_pos hd]
          exact ih h
        next hd =>
          rw [if_neg hd]
          exact ih h

theorem parseInto_ignoresBusy (ds : List Nat) : IgnoresBusy (parseInto ds) := by
  intro s w
  unfold parseInto
  split
  · rfl
  · split <;> rfl

/-- Where a call that reads a byte is left in progress, it took only "no byte yet". -/
theorem onByte_waiting {w : InProgress} {k : Byte → State → Outcome} {s t : State}
    (hk : ∀ b s t, k b s = .next t → t.busy = none) (h : onByte w k s = .next t) (hb : t.busy ≠ none) :
    t = (s.setInput []).setBusy (some w) ∧ ∀ e ∈ s.input, e = .noByte := by
  unfold onByte inRead at h
  rcases inReadFrom_cases s.input s with ⟨b, pre, rest, hr, -⟩ | ⟨pre, rest, hr, -⟩ | ⟨hr, hi⟩ <;> rw [hr] at h
  · exact absurd (hk b _ t h) hb
  · cases h
    exact absurd rfl hb
  · cases h
    exact ⟨rfl, hi⟩

theorem writeAndFinish_busy {bs : List Byte} {s t : State} (h : writeAndFinish bs s = .next t) : t.busy = none := by
  rcases Res.andThen_eq_next.mp h with ⟨_, s1, -, hflush⟩ | ⟨r, s1, -, rfl⟩
  · obtain ⟨⟨-, -, -, -, -, hb⟩, -⟩ := flushAndFinish_next hflush
    exact hb
  · rfl

theorem parseInto_busy {ds : List Nat} {s t : State} (h : parseInto ds s = .next t) : t.busy = none := by
  unfold parseInto at h
  split at h
  · cases h
    rfl
  · split at h <;> cases h <;> rfl

/-- Where IN-U16 is left in progress, it has taken the whole stream. -/
theorem continueInU16_waiting {ds : List Nat} {s t : State} (h : continueInU16 ds s = .next t) (hb : t.busy ≠ none) :
    ∃ ds1, digitLoop s.input ds = .waits ds1 ∧ t = (s.setInput []).setBusy (some (.inU16 ds1)) := by
  unfold continueInU16 at h
  split at h
  next => exact absurd (parseInto_busy h) hb
  next =>
    cases h
    exact absurd rfl hb
  next ds1 hloop =>
    cases h
    exact ⟨ds1, hloop, rfl⟩

theorem continueInU16_of_noByte {ds : List Nat} {s : State} (hi : ∀ e ∈ s.input, e = .noByte) :
    continueInU16 ds s = .next ((s.setInput []).setBusy (some (.inU16 ds))) := by
  have hloop : digitLoop s.input ds = .waits ds := by
    generalize s.input = es at hi
    induction es with
    | nil => rfl
    | cons e es ih =>
      obtain rfl : e = .noByte := hi e List.mem_cons_self
      exact ih fun e he => hi e (List.mem_cons_of_mem _ he)
  simp [continueInU16, hloop]

theorem continueInU16_hostSupply {ds ds1 : List Nat} {s : State} (h : digitLoop s.input ds = .waits ds1)
    (c : Option InProgress) (es : List InEvent) :
    continueInU16 ds1 (((s.setInput []).setBusy c).hostSupply es) = continueInU16 ds (s.hostSupply es) := by
  have hright : digitLoop (s.hostSupply es).input ds = digitLoop es ds1 := digitLoop_append h es
  have hleft : (((s.setInput []).setBusy c).hostSupply es).input = es := rfl
  unfold continueInU16
  rw [hright, hleft]
  cases digitLoop es ds1 with
  | done ds2 rest => exact parseInto_ignoresBusy ds2 (s.setInput rest) c
  | error rest | waits ds2 => rfl

end Machine

namespace Proofs

open Machine Claims

/-- Settles O45: the row of vector x20 (`decode_trapGetc`), and what a blocking read takes. -/
theorem getcReadsOneByteIntoR0 : Obligations.GetcReadsOneByteIntoR0 := by
  refine ⟨fun _ => decode_trapGetc, fun s pre rest b hi hpre => ?_, fun s pre rest hi hpre => ?_⟩
  · rw [exec_trapGetc, onByte_of_byte hpre (s := linked s) hi]
    rfl
  · rw [exec_trapGetc, onByte_of_error hpre (s := linked s) hi]
    rfl

/-- Settles O46: the row of vector x21 (`decode_trapOut`), and the ends of `writeAndFinish` for one byte. -/
theorem outWritesTheLowByteOfR0 : Obligations.OutWritesTheLowByteOfR0 := by
  refine ⟨fun _ => decode_trapOut, fun s h => ?_, fun s rest h => ?_, fun s rest h => ?_⟩ <;> rw [exec_trapOut]
  · exact writeAndFinish_of_outOk (s := linked s) h
  · rw [writeAndFinish_of_error (s := linked s) (k := 0) (Nat.zero_le _) h, List.take_zero, List.append_nil]
  · exact writeAndFinish_of_error (bs := [_]) (s := linked s) (k := 1) (Nat.le_refl 1) h

/-- Settles O51: the row of vector x23 (`decode_trapIn`), what a blocking read takes, and the ends of `writeAndFinish`
for the echo. -/
theorem inReadsOneByteAndEchoesIt : Obligations.InReadsOneByteAndEchoesIt := by
  refine ⟨fun _ => decode_trapIn, fun s pre rest b hi hpre => ?_, fun s pre rest hi hpre => ?_⟩
  · rw [exec_trapIn, onByte_of_byte hpre (s := linked s) hi]
    have hok := writeAndFinish_of_outOk (bs := [b]) (s := ((linked s).setInput rest).writeReg .r0 (zext8 b))
    have herr := @writeAndFinish_of_error [b] (((linked s).setInput rest).writeReg .r0 (zext8 b))
    refine ⟨hok, fun as h => ?_, fun as => herr (k := 1) (Nat.le_refl 1)⟩
    rw [herr (k := 0) (Nat.zero_le _) h, List.take_zero, List.append_nil]
    rfl
  · rw [exec_trapIn, onByte_of_error hpre (s := linked s) hi]
    rfl

/-- Settles O56: a read that finds no byte leaves its call in progress (`onByte_of_noByte`), and so does a step of the
call while the stream is empty. -/
theorem blockingReadsWaitForAByte : Obligations.BlockingReadsWaitForAByte := by
  refine ⟨fun s hi => ⟨?_, ?_, ?_⟩, fun s hr hi hbusy => ?_⟩
  · exact onByte_of_noByte (s := linked s) hi
  · exact onByte_of_noByte (s := linked s) hi
  · exact continueInU16_of_noByte (s := linked s) hi
  · have hnone : ∀ e ∈ s.input, e = .noByte := by simp [hi]
    have hsame {w : InProgress} (hw : s.busy = some w) : (s.setInput []).setBusy (some w) = s := by
      rw [← hi, ← hw]
      rfl
    rcases hbusy with hw | hw | ⟨ds, hw⟩ <;> rw [step_busy hr hw]
    · exact (onByte_of_noByte hnone).trans (congrArg _ (hsame hw))
    · exact (onByte_of_noByte hnone).trans (congrArg _ (hsame hw))
    · exact (continueInU16_of_noByte hnone).trans (congrArg _ (hsame hw))

/-- Settles O57: a call that waits took only what it skips or keeps, so with the rest of the stream it ends as the call
would have from the start (`onByte_hostSupply`, `continueInU16_hostSupply`). -/
theorem waitingForInputIsInvisible : Obligations.WaitingForInputIsInvisible := by
  intro i s t es hi hr h hb
  simp only [List.mem_cons, List.not_mem_nil, or_false] at hi
  rcases hi with rfl | rfl | rfl
  · obtain ⟨rfl, hin⟩ := onByte_waiting (s := linked s) (by rintro b s t ⟨⟩; rfl) h hb
    rw [step_waiting (s := linked s) hr]
    exact onByte_hostSupply (s := linked s) (fun b s w => rfl) hin _ es
  · rw [exec_trapIn] at h ⊢
    obtain ⟨rfl, hin⟩ := onByte_waiting (fun _ _ _ => writeAndFinish_busy) h hb
    have hecho (b : Byte) : IgnoresBusy fun s => writeAndFinish [b] (s.writeReg .r0 (zext8 b)) :=
      fun s w => writeAndFinish_ignoresBusy [b] (s.writeReg .r0 (zext8 b)) w
    rw [step_waiting (s := linked s) hr, resumeTrap, continueIn_eq]
    exact onByte_hostSupply hecho hin _ es
  · obtain ⟨ds1, hloop, rfl⟩ := continueInU16_waiting (s := linked s) h hb
    rw [step_waiting (s := linked s) hr]
    exact continueInU16_hostSupply (s := linked s) hloop _ es

end Proofs
end Sys2Proof
end

section
/-! PROOFS. The string calls PUTS and PUTSP (O47 to O50). The spec's loop, as a relation, and the model's loop end alike
(`StringRun.stringLoop`, and `StringGoesOn.stringLoop` of Laws/Strings); a string whose cells are given is a run of that
relation. -/

namespace Sys2Proof
namespace Claims

open Machine

/-- Where the spec's loop ends within `fuel` cells, so does the model's. -/
theorem StringRun.stringLoop {f : Word → List Byte} {n fuel : Nat} {a : Word} {s : State} {e : StringResult}
    (h : StringRun f n a s e) (hn : n ≤ fuel) : Machine.stringLoop f fuel a s = e := by
  induction h generalizing fuel with
  | zeroCell h =>
    obtain ⟨m, rfl⟩ := Nat.exists_eq_add_of_le' hn
    simp [Machine.stringLoop, h]
  | readFails h =>
    obtain ⟨m, rfl⟩ := Nat.exists_eq_add_of_le' hn
    simp [Machine.stringLoop, h]
  | writeFails h hc hw =>
    obtain ⟨m, rfl⟩ := Nat.exists_eq_add_of_le' hn
    simp [Machine.stringLoop, h, hc, hw]
  | @cell n a c s s1 s2 e h hc hw _ ih =>
    obtain ⟨m, rfl⟩ := Nat.exists_eq_add_of_le' (Nat.le_trans (Nat.le_add_left 1 n) hn)
    simp only [Machine.stringLoop, h, hc, hw, if_false]
    exact ih (Nat.le_of_succ_le_succ hn)

/-- The spec's loop has no bound of its own: it never ends with cells left. -/
theorem StringRun.not_more {f : Word → List Byte} {n : Nat} {a b : Word} {s t : State} :
    ¬ StringRun f n a s (.more b t) := by
  intro h
  generalize he : StringResult.more b t = e at h
  induction h with
  | zeroCell | readFails | writeFails => cases he
  | cell _ _ _ _ ih => exact ih he

end Claims

namespace Machine

open Claims

section
variable {f : Word → List Byte} {resume : Word → InProgress} {a : Word} {s t : State}

theorem continueString_of_done (h : stringLoop f Config.stringBurst a s = .done t) :
    continueString f resume a s = flushAndFinish t := by
  simp only [continueString, h]

theorem continueString_of_fatal {r : FatalReason} (h : stringLoop f Config.stringBurst a s = .fatal r t) :
    continueString f resume a s = .next (faulted t r) := by
  simp only [continueString, h]
  rfl

/-- The loop of a string call ended: the call ends as R124, R126 and R130 say. -/
theorem stringCallEnds_continueString {n : Nat} {e : StringResult} (h : StringRun f n a s e)
    (hn : n ≤ Config.stringBurst) : stringCallEnds e (continueString f resume a s) := by
  have hloop := h.stringLoop hn
  cases e with
  | done t =>
    rw [continueString_of_done hloop]
    constructor
    · intro u hu
      rw [flushAndFinish, hu]
      rfl
    · intro r u hu
      rw [flushAndFinish, hu]
      rfl
  | fatal r t => exact continueString_of_fatal hloop
  | more b t => exact h.not_more

/-- The loop of a string call has used up its burst: the call stays in progress at the next cell. -/
theorem continueString_goesOn (h : StringGoesOn f Config.stringBurst a s t) :
    continueString f resume a s = .next { t with busy := some (resume (a + BitVec.ofNat 16 Config.stringBurst)) } := by
  simp only [continueString, h.stringLoop]
  rfl

end

/-! ## A given string -/

theorem add_one_add_ofNat (a : Word) (k : Nat) : a + 1#16 + BitVec.ofNat 16 k = a + BitVec.ofNat 16 (k + 1) := by
  rw [BitVec.add_assoc, BitVec.ofNat_add, BitVec.add_comm (1#16)]

/-- The cells `cs` stand from `a` on, a zero cell ends them, none is zero and none is at KBSR_ADDR. -/
structure StringAt (s : State) (a : Word) (cs : List Word) : Prop where
  nonzero : ∀ c ∈ cs, c ≠ 0x0000#16
  cells : ∀ (k : Nat) (h : k < cs.length), s.cell (a + BitVec.ofNat 16 k) = cs[k]
  zero : s.cell (a + BitVec.ofNat 16 cs.length) = 0x0000#16
  plain : ∀ k : Nat, k ≤ cs.length → a + BitVec.ofNat 16 k ≠ kbsrAddr

theorem StringAt.tail {s t : State} {a c : Word} {cs : List Word} (h : StringAt s a (c :: cs))
    (hmem : t.mem = s.mem) : StringAt t (a + 1#16) cs where
  nonzero d hd := h.nonzero d (List.mem_cons_of_mem c hd)
  cells k hk := by
    rw [add_one_add_ofNat, State.cell_congr hmem, h.cells (k + 1) (Nat.succ_lt_succ hk)]
    rfl
  zero := by
    rw [add_one_add_ofNat, State.cell_congr hmem]
    exact h.zero
  plain k hk := add_one_add_ofNat a k ▸ h.plain (k + 1) (Nat.succ_le_succ hk)

/-- The loop over such a string, to a host that accepts its bytes, writes them all. -/
theorem StringAt.run (f : Word → List Byte) {s : State} {a : Word} {cs : List Word} (h : StringAt s a cs)
    (hok : outOk (cs.flatMap f).length s) :
    StringRun f (cs.length + 1) a s (.done ((s.setOutAnswers (s.outAnswers.drop (cs.flatMap f).length)).setOutPending
      (s.outPending ++ cs.flatMap f))) := by
  have hread : memRead a s = .ok (s.cell a) s := memRead_plain (by simpa using h.plain 0 (Nat.zero_le _)) s
  induction cs generalizing a s with
  | nil =>
    have hzero : s.cell a = 0x0000#16 := by simpa using h.zero
    simpa [State.setOutAnswers, State.setOutPending] using StringRun.zeroCell (hzero ▸ hread)
  | cons c cs ih =>
    have hc : s.cell a = c := by simpa using h.cells 0 (Nat.succ_pos _)
    rw [List.flatMap_cons, List.length_append, outOk_add] at hok
    obtain ⟨hf, hrest⟩ := hok
    refine .cell (hc ▸ hread) (h.nonzero c List.mem_cons_self) (outWriteAll_of_outOk hf) ?_
    have htail :=
      h.tail (t := (s.setOutAnswers (s.outAnswers.drop (f c).length)).setOutPending (s.outPending ++ f c)) rfl
    have hnext := ih htail hrest (memRead_plain (by simpa using htail.plain 0 (Nat.zero_le _)) _)
    simpa [State.setOutAnswers, State.setOutPending, Nat.add_comm] using hnext

/-- A string call on such a string, to a host that accepts its bytes and the flush. -/
theorem StringAt.continueString (f : Word → List Byte) (resume : Word → InProgress) {s : State} {a : Word}
    {cs : List Word} (h : StringAt s a cs) (hlen : cs.length < 65536) (hok : outOk ((cs.flatMap f).length + 1) s) :
    continueString f resume a s = .next { s with
      outAnswers := s.outAnswers.drop ((cs.flatMap f).length + 1), outPending := [],
      outDelivered := s.outDelivered ++ (s.outPending ++ cs.flatMap f), busy := none } := by
  obtain ⟨hbytes, hflush⟩ := outOk_add.mp hok
  rw [continueString_of_done ((h.run f hbytes).stringLoop hlen), flushAndFinish_of_outOk (outOk_setOutPending hflush _)]
  simp [State.setOutAnswers, State.setOutPending]

/-! ## A string without end -/

/-- A string call in progress that a pass over memory does not end: every cell but KBSR is nonzero, and the bytes `bs`
are still to come. -/
structure Endless (w : InProgress) (bs : List Byte) (more : List InEvent) (out : List Byte) (t : State) : Prop where
  busy : t.busy = some w
  running : t.runState = .running
  delivered : t.outDelivered = out
  noZero : NoZeroCell t
  input : t.input = bs.map InEvent.byte ++ more

/-- A pass takes one byte, and stands where it began. -/
theorem continueString_endless (f : Word → List Byte) (resume : Word → InProgress) (a : Word) {s : State} {b : Byte}
    {bs : List Byte} {more : List InEvent} (hr : s.runState = .running) (hs : NoZeroCell s) (hb : b ≠ 0x00#8)
    (hi : s.input = (b :: bs).map InEvent.byte ++ more) :
    ∃ t, continueString f resume a s = .next t ∧ Endless (resume a) bs more s.outDelivered t := by
  obtain ⟨t, hgo, ht, hti⟩ := hs.pass f a hb hi
  have hround : a + BitVec.ofNat 16 Config.stringBurst = a := BitVec.add_zero a
  have hframe := (stringLoop_frame f 65536 a s).1
  rw [hgo.stringLoop] at hframe
  refine ⟨_, continueString_goesOn hgo, ?_, hframe.runState.trans hr, hframe.outDelivered, ht, hti⟩
  rw [hround]

theorem runFor_endless (f : Word → List Byte) (resume : Word → InProgress) (a : Word)
    (hresume : ∀ s, resumeTrap (resume a) s = continueString f resume a s) {bs : List Byte} {more : List InEvent}
    {out : List Byte} {t : State} (hbs : ∀ c ∈ bs, c ≠ 0x00#8) (ht : Endless (resume a) bs more out t) {n : Nat}
    (hn : n ≤ bs.length) : Endless (resume a) (bs.drop n) more out (runFor n t) := by
  induction n generalizing bs t with
  | zero => exact ht
  | succ n ih =>
    cases bs with
    | nil => simp at hn
    | cons b bs =>
      obtain ⟨u, hu, hend⟩ := continueString_endless f resume a ht.running ht.noZero (hbs b List.mem_cons_self) ht.input
      rw [ht.delivered] at hend
      have hstep : step t = .next u := (step_busy ht.running ht.busy).trans ((hresume t).trans hu)
      simp only [runFor, hstep]
      exact ih (fun c hc => hbs c (List.mem_cons_of_mem b hc)) hend (Nat.le_of_succ_le_succ hn)

end Machine

namespace Proofs

open Machine Claims

/-- Settles O47: PUTS writes one byte a cell. -/
theorem putsWritesTheLowByteOfEachCell : Obligations.PutsWritesTheLowByteOfEachCell := by
  refine ⟨fun _ => decode_trapPuts, fun s cs hlen hnz hcells hzero hplain hok => ?_⟩
  have hstr : StringAt (linked s) (s.readReg .r0) cs := ⟨hnz, hcells, hzero, hplain⟩
  have hbytes : cs.flatMap putsBytes = cs.map lowByte := List.map_eq_flatMap.symm
  have hcall := hstr.continueString putsBytes .puts hlen (by rw [hbytes, List.length_map]; exact hok)
  rw [hbytes, List.length_map] at hcall
  exact hcall

/-- Settles O48: PUTSP writes two bytes a cell. -/
theorem putspWritesBothBytesHighFirst : Obligations.PutspWritesBothBytesHighFirst := by
  refine ⟨fun _ => decode_trapPutsp, fun s cs hlen hnz hcells hzero hplain hok => ?_⟩
  have hstr : StringAt (linked s) (s.readReg .r0) cs := ⟨hnz, hcells, hzero, hplain⟩
  have hcount : (cs.flatMap putspBytes).length = 2 * cs.length := by
    simp [List.length_flatMap, putspBytes, Nat.mul_comm]
  have hcall := hstr.continueString putspBytes .putsp hlen (by rw [hcount]; exact hok)
  rw [hcount] at hcall
  exact hcall

/-- Settles O49: the calls and their resumptions are one loop (`continueString`), which ends as the spec's does
(`stringCallEnds_continueString`) or goes on as it does (`continueString_goesOn`). -/
theorem stringCallsRunTheirLoop : Obligations.StringCallsRunTheirLoop := by
  have ends {f resume n a s e} (hn : n ≤ 65536) (h : StringRun f n a s e) :
      stringCallEnds e (continueString f resume a s) := stringCallEnds_continueString h hn
  exact ⟨fun n s a e hn => ⟨ends hn, ends hn, fun hr hb h => step_busy hr hb ▸ ends hn h,
      fun hr hb h => step_busy hr hb ▸ ends hn h⟩,
    fun s t a => ⟨continueString_goesOn, continueString_goesOn,
      fun hr hb h => (step_busy hr hb).trans (continueString_goesOn h),
      fun hr hb h => (step_busy hr hb).trans (continueString_goesOn h)⟩⟩

/-- Settles O50: entering the call is one pass, and so is every later step (`runFor_endless`). -/
theorem stringsWithNoZeroCellNeverEnd : Obligations.StringsWithNoZeroCellNeverEnd := by
  intro s b bs more hr hcells hbytes hi hans call hcall
  have hpass (f : Word → List Byte) (resume : Word → InProgress)
      (hresume : ∀ a s, resumeTrap (resume a) s = continueString f resume a s) :
      ∃ t, continueString f resume (s.readReg .r0) (linked s) = .next t ∧ ∀ n, n ≤ bs.length →
        (runFor n t).busy = some (resume (s.readReg .r0)) ∧ (runFor n t).runState = .running ∧
        (runFor n t).outDelivered = s.outDelivered := by
    obtain ⟨t, ht, hend⟩ := continueString_endless f resume (s.readReg .r0) (s := linked s) hr ⟨hcells, hans⟩
      (hbytes b List.mem_cons_self) hi
    refine ⟨t, ht, fun n hn => ?_⟩
    obtain ⟨hbusy, hrun, hdel, -, -⟩ :=
      runFor_endless f resume _ (hresume _) (fun c hc => hbytes c (List.mem_cons_of_mem b hc)) hend hn
    exact ⟨hbusy, hrun, hdel⟩
  simp only [List.mem_cons, List.not_mem_nil, or_false] at hcall
  rcases hcall with rfl | rfl
  · exact hpass putsBytes .puts fun _ _ => rfl
  · exact hpass putspBytes .putsp fun _ _ => rfl

end Proofs
end Sys2Proof
end

section
/-! PROOFS. IN-U16 and OUT-U16 (O53 to O55): the digits of a number, most significant first, are Mathlib's `Nat.digits`
reversed, and their value is `Nat.ofDigits`. -/

namespace Sys2Proof
namespace Machine

open Claims

/-! ## Reading digits -/

theorem decimalValue_eq_ofDigits (ds : List Nat) : decimalValue ds = Nat.ofDigits 10 ds.reverse := by
  rw [Nat.ofDigits_eq_foldr, List.foldr_reverse]
  simp only [decimalValue, Nat.cast_id, Nat.add_comm]

theorem digitsIn_cons (b : Byte) (bs : List Byte) :
    digitsIn (b :: bs) = (if isDigit b then [digitValue b] else []) ++ digitsIn bs := by
  have hdigit : decide (0x30 ≤ b.toNat ∧ b.toNat ≤ 0x39) = isDigit b := Bool.decide_and _ _
  unfold digitsIn
  rw [List.filter_cons, hdigit]
  cases isDigit b <;> rfl

/-- Before a newline and without an error the digit loop keeps the digits and drops the rest (45_trap.md R128). -/
theorem digitLoop_eq_waits {es : List InEvent} (hes : ∀ e ∈ es, e ≠ .error ∧ e ≠ .byte 0x0A#8) (ds : List Nat) :
    digitLoop es ds = .waits (ds ++ digitsIn (bytesIn es)) := by
  induction es generalizing ds with
  | nil => exact congrArg _ (List.append_nil ds).symm
  | cons e es ih =>
    obtain ⟨herr, hnl⟩ := hes e List.mem_cons_self
    have ih := ih fun e he => hes e (List.mem_cons_of_mem _ he)
    cases e with
    | error => exact absurd rfl herr
    | noByte => exact ih ds
    | byte b =>
      have hb : b ≠ newlineByte := fun h => hnl (congrArg _ h)
      have hbytes : bytesIn (.byte b :: es) = b :: bytesIn es := rfl
      rw [hbytes, digitsIn_cons, digitLoop, if_neg hb]
      split
      · rw [ih, List.append_assoc]
      · exact ih ds

theorem exec_trapInU16 (s : State) : exec .trapInU16 s = continueInU16 [] (linked s) := rfl

section
variable {s : State} {es rest : List InEvent} (hes : ∀ e ∈ es, e ≠ .error ∧ e ≠ .byte 0x0A#8)
include hes

theorem exec_trapInU16_of_newline (hi : s.input = es ++ .byte 0x0A#8 :: rest) :
    exec .trapInU16 s = parseInto (digitsIn (bytesIn es)) ((linked s).setInput rest) := by
  have hloop : digitLoop (linked s).input [] = .done (digitsIn (bytesIn es)) rest :=
    (congrArg (digitLoop · []) hi).trans (digitLoop_append (digitLoop_eq_waits hes []) _)
  rw [exec_trapInU16, continueInU16, hloop]

theorem exec_trapInU16_of_error (hi : s.input = es ++ .error :: rest) :
    exec .trapInU16 s = .next (faulted ((linked s).setInput rest) .io) := by
  have hloop : digitLoop (linked s).input [] = .error rest :=
    (congrArg (digitLoop · []) hi).trans (digitLoop_append (digitLoop_eq_waits hes []) _)
  rw [exec_trapInU16, continueInU16, hloop]
  rfl

end

theorem parseInto_of_bad {ds : List Nat} (h : ds = [] ∨ 65535 < decimalValue ds) (s : State) :
    parseInto ds s = .next (faulted s .parse) := by
  unfold parseInto
  split
  · rfl
  next hne => exact if_pos (h.resolve_left hne)

theorem parseInto_of_good {ds : List Nat} (hne : ds ≠ []) (h : decimalValue ds ≤ 65535) (s : State) :
    parseInto ds s = .next (s.writeReg .r0 (BitVec.ofNat 16 (decimalValue ds))).trapDone := by
  unfold parseInto
  rw [if_neg hne, if_neg (Nat.not_lt.mpr h)]

/-! ## Writing digits -/

theorem decimalDigits_eq_digits {fuel n : Nat} (h0 : n ≠ 0) (hn : n < 10 ^ fuel) :
    decimalDigits fuel n = (Nat.digits 10 n).reverse := by
  induction fuel generalizing n with
  | zero => exact absurd (Nat.lt_one_iff.mp hn) h0
  | succ f ih =>
    unfold decimalDigits
    split
    next hlt => rw [Nat.digits_of_lt 10 n h0 hlt, List.reverse_singleton]
    next hge =>
      have hdiv0 : n / 10 ≠ 0 := by omega
      have hdiv : n / 10 < 10 ^ f := by
        rw [Nat.div_lt_iff_lt_mul (by decide)]
        exact hn
      rw [ih hdiv0 hdiv, Nat.digits_def' (by decide) (Nat.pos_of_ne_zero h0), List.reverse_cons]

/-- The digits OUT-U16 writes for `n`, as the spec describes them (45_trap.md R129). -/
structure DecimalForm (n : Nat) (ds : List Nat) : Prop where
  decimal : ∀ d ∈ ds, d ≤ 9
  nonempty : 1 ≤ ds.length
  short : ds.length ≤ 5
  noLeadingZero : ds.head? = some 0 → ds = [0]
  value : Nat.ofDigits 10 ds.reverse = n

theorem decimalDigits_form {n : Nat} (hn : n < 65536) : DecimalForm n (decimalDigits 5 n) := by
  by_cases h0 : n = 0
  · subst h0
    exact ⟨by decide, by decide, by decide, by decide, by decide⟩
  · have hpow : n < 10 ^ 5 := by omega
    rw [decimalDigits_eq_digits h0 hpow]
    refine ⟨fun d hd => ?_, ?_, ?_, fun hhead => ?_, ?_⟩
    · exact Nat.le_of_lt_succ (Nat.digits_lt_base (by decide) (List.mem_reverse.mp hd))
    · rw [List.length_reverse]
      exact List.length_pos_of_ne_nil (Nat.digits_ne_nil_iff_ne_zero.mpr h0)
    · rw [List.length_reverse]
      exact (Nat.digits_length_le_iff (by decide) n).mpr hpow
    · rw [List.head?_reverse, List.getLast?_eq_some_getLast (Nat.digits_ne_nil_iff_ne_zero.mpr h0)] at hhead
      exact absurd (Option.some.inj hhead) (Nat.getLast_digit_ne_zero 10 h0)
    · rw [List.reverse_reverse, Nat.ofDigits_digits]

/-! ## There and back -/

theorem digitsIn_map_digitByte {ds : List Nat} (h : ∀ d ∈ ds, d ≤ 9) : digitsIn (ds.map digitByte) = ds := by
  induction ds with
  | nil => rfl
  | cons d ds ih =>
    have hd : isDigit (digitByte d) = true ∧ digitValue (digitByte d) = d := by
      have := h d List.mem_cons_self
      interval_cases d <;> decide
    rw [List.map_cons, digitsIn_cons, hd.1, hd.2, ih fun d hd => h d (List.mem_cons_of_mem _ hd)]
    rfl

theorem bytesIn_map_byte (bs : List Byte) : bytesIn (bs.map .byte) = bs := by
  simp [bytesIn, List.filterMap_map]

theorem digitByte_ne_newline {d : Nat} (h : d ≤ 9) : digitByte d ≠ 0x0A#8 := by
  interval_cases d <;> decide

end Machine

namespace Proofs

open Machine Claims

/-- Settles O53: the row of vector x26 (`decode_trapInU16`), what the digit loop keeps, and the parse. -/
theorem inU16ParsesTheDigitsBeforeTheNewline : Obligations.InU16ParsesTheDigitsBeforeTheNewline := by
  refine ⟨fun _ => decode_trapInU16, fun s es rest hi hes => ?_, fun s es rest hi hes => exec_trapInU16_of_error hes hi⟩
  rw [exec_trapInU16_of_newline hes hi, ← decimalValue_eq_ofDigits]
  exact ⟨fun h => parseInto_of_bad h _, fun hne h => parseInto_of_good hne h _⟩

/-- Settles O54: the form of the digits (`decimalDigits_form`), and the ends of `writeAndFinish`. -/
theorem outU16WritesTheDecimalDigits : Obligations.OutU16WritesTheDecimalDigits := by
  refine ⟨fun _ => decode_trapOutU16, fun s => ?_⟩
  obtain ⟨hdec, hone, hfive, hlead, hval⟩ := decimalDigits_form (s.readReg .r0).isLt
  have hlen : (decimalBytes (s.readReg .r0)).length = (decimalDigits 5 (s.readReg .r0).toNat).length :=
    List.length_map _
  refine ⟨_, hdec, hone, hfive, hlead, hval, fun h => ?_, fun k rest hk h => ?_⟩ <;> rw [exec_trapOutU16]
  · rw [← hlen] at h ⊢
    exact writeAndFinish_of_outOk (s := linked s) h
  · rw [List.map_take]
    exact writeAndFinish_of_error (s := linked s) (hlen ▸ hk) h

/-- Settles O55: the bytes OUT-U16 writes are digits and no newline, and they stand for the value. -/
theorem inU16ReadsBackWhatOutU16Writes : Obligations.InU16ReadsBackWhatOutU16Writes := by
  intro v s rest hi
  obtain ⟨hdec, hone, -, -, hval⟩ := decimalDigits_form v.isLt
  have hes : ∀ e ∈ (decimalBytes v).map InEvent.byte, e ≠ .error ∧ e ≠ .byte 0x0A#8 := by
    simp only [decimalBytes, List.map_map, List.mem_map, Function.comp_apply]
    rintro _ ⟨d, hd, rfl⟩
    exact ⟨nofun, fun h => digitByte_ne_newline (hdec d hd) (InEvent.byte.inj h)⟩
  have hdigits : digitsIn (bytesIn ((decimalBytes v).map .byte)) = decimalDigits 5 v.toNat := by
    rw [bytesIn_map_byte, decimalBytes, digitsIn_map_digitByte hdec]
  have hvalue : decimalValue (decimalDigits 5 v.toNat) = v.toNat := (decimalValue_eq_ofDigits _).trans hval
  rw [exec_trapInU16_of_newline hes (by simpa using hi), hdigits,
    parseInto_of_good (List.ne_nil_of_length_pos hone) (by omega), hvalue, BitVec.ofNat_toNat, BitVec.setWidth_eq]
  rfl

end Proofs
end Sys2Proof
end

section
/-! PROOFS. The loader (O60; 20_memory.md R53 to R55). -/

namespace Sys2Proof
namespace Machine

open Claims

/-- The two bytes of a word, the high one first (R53). -/
def wordBytes (w : Word) : List Byte := [w.extractLsb' 8 8, w.extractLsb' 0 8]

/-- The words of an image are read back from its bytes, and a trailing odd byte is dropped. -/
theorem wordsOfBytes_flatMap (ws : List Word) {odd : List Byte} (hodd : odd.length ≤ 1) :
    wordsOfBytes (ws.flatMap wordBytes ++ odd) = ws := by
  induction ws with
  | nil =>
    match odd, hodd with
    | [], _ | [_], _ => rfl
  | cons w ws ih =>
    have hw : w.extractLsb' 8 8 ++ w.extractLsb' 0 8 = w :=
      (field_append_field w 8 0 8 rfl).trans (field_whole w)
    exact congrArg₂ _ hw ih

/-- Writing words changes memory alone. -/
theorem writeWords_eq_setMem (ws : List Word) (a : Word) (s : State) : ∃ m, writeWords a ws s = s.setMem m := by
  induction ws generalizing a s with
  | nil => exact ⟨s.mem, rfl⟩
  | cons w ws ih =>
    obtain ⟨m, hm⟩ := ih (a + 1#16) (s.memWrite a w)
    exact ⟨m, hm⟩

/-- A cell outside the addresses written to. -/
theorem writeWords_cell_of_ne {ws : List Word} {a b : Word} {s : State}
    (hb : ∀ k : Nat, k < ws.length → b ≠ a + BitVec.ofNat 16 k) : (writeWords a ws s).cell b = s.cell b := by
  induction ws generalizing a s with
  | nil => rfl
  | cons w ws ih =>
    have hba : b ≠ a := by simpa using hb 0 (Nat.succ_pos _)
    rw [writeWords, ih fun k hk => add_one_add_ofNat a k ▸ hb (k + 1) (Nat.succ_lt_succ hk), State.cell_memWrite,
      if_neg hba]

/-- No word is overwritten by a later one, since no address comes twice among 65536 in a row. -/
theorem writeWords_cell {ws : List Word} {a : Word} {s : State} (hlen : ws.length ≤ 65536) {k : Nat}
    (hk : k < ws.length) : (writeWords a ws s).cell (a + BitVec.ofNat 16 k) = ws[k] := by
  induction ws generalizing a s k with
  | nil => simp at hk
  | cons w ws ih =>
    rw [List.length_cons] at hlen hk
    cases k with
    | zero =>
      have hlater (j : Nat) (hj : j < ws.length) : a + BitVec.ofNat 16 0 ≠ a + 1#16 + BitVec.ofNat 16 j := by
        rw [add_one_add_ofNat]
        intro h
        have := addOfNat_inj (by omega) (by omega) h
        omega
      rw [writeWords, writeWords_cell_of_ne hlater, State.cell_memWrite, if_pos (BitVec.add_zero a)]
      rfl
    | succ k =>
      rw [writeWords, ← add_one_add_ofNat a k]
      exact ih (Nat.le_of_succ_le hlen) (Nat.lt_of_succ_lt_succ hk)

end Machine

namespace Proofs

open Machine Claims

/-- Settles O60: the words are read back from the bytes (`wordsOfBytes_flatMap`), and written into consecutive cells. -/
theorem loaderPlacesTheImage : Obligations.LoaderPlacesTheImage := by
  have hload (s : State) (origin : Word) (ws : List Word) (odd : List Byte) (hodd : odd.length ≤ 1) :
      loadImage ((origin :: ws).flatMap wordBytes ++ odd) s =
        if 65536 < origin.toNat + ws.length then .error (.runsPastTop origin ws.length)
        else if origin ≠ Config.pcStart then .error (.originNotPcStart origin)
        else .ok (writeWords origin ws s) := by
    rw [loadImage, wordsOfBytes_flatMap _ hodd]
  refine ⟨fun s ws odd hodd hfit => ?_, fun s bytes hshort => ?_, fun s origin ws odd hodd hbad => ?_⟩
  · refine ⟨writeWords Config.pcStart ws s, ?_, fun k hk => writeWords_cell (by omega) hk,
      fun a ha => writeWords_cell_of_ne ha, ?_⟩
    · exact (hload s _ ws odd hodd).trans (by rw [if_neg (by omega), if_neg (by simp)])
    · obtain ⟨m, hm⟩ := writeWords_eq_setMem ws Config.pcStart s
      rw [hm]
      rfl
  · match bytes, hshort with
    | [], _ | [_], _ => rfl
  · by_cases hfit : 65536 < origin.toNat + ws.length
    · exact ⟨_, (hload s origin ws odd hodd).trans (if_pos hfit)⟩
    · exact ⟨_, (hload s origin ws odd hodd).trans ((if_neg hfit).trans (if_pos (hbad.resolve_left hfit)))⟩

end Proofs
end Sys2Proof
end
